-- ==== Sys2Proof/Word.lean ====
section
/-! DEFINITION. The bit vectors of the W26CODEC block (00_scope.md R6, R8): every value is unsigned, with bit 0
least significant. -/

namespace Sys2Proof

/-- One byte of a byte sequence (R9). -/
abbrev Byte := BitVec 8

/-- One bit, a value in 0 and 1 (R8). -/
abbrev Bit := BitVec 1

/-- A facility code, exactly 8 bits wide (R3, R26). -/
abbrev FacilityCode := BitVec 8

/-- A card number, exactly 16 bits wide (R3, R26). -/
abbrev CardNumber := BitVec 16

/-- A frame: the 32-bit integer of the layout of R69 (R27). -/
abbrev Frame := BitVec 32

end Sys2Proof
end

