-- ==== Sys2Proof/Config.lean ====
section
/-! DEFINITION. The fixed parameters of 00_scope.md R6 and the one open parameter, T_SETTLE (R7, R233). -/

namespace Sys2Proof.Config

/-- `FC_W`: the width of a facility code (R6). -/
@[simp] abbrev fcWidth : Nat := 8

/-- `CN_W`: the width of a card number (R6). -/
@[simp] abbrev cnWidth : Nat := 16

/-- `FRAME_W`: the width of a frame (R6). -/
@[simp] abbrev frameWidth : Nat := 32

/-- `FRAME_BYTES`: the wire bytes of a frame (R6). -/
@[simp] abbrev frameBytes : Nat := 4

/-- `USED_BITS`: bits 0 to 25 are used, bits 26 to 31 are not (R6). -/
@[simp] abbrev usedBits : Nat := 26

/-- `P0_POS`: where the even parity bit stands (R6). -/
@[simp] abbrev p0Pos : Nat := 25

/-- `P1_POS`: where the odd parity bit stands (R6). -/
@[simp] abbrev p1Pos : Nat := 0

/-- The first bit of `P0_RANGE`, bits 1 to 12 (R6). -/
@[simp] abbrev p0Start : Nat := 1

/-- The first bit of `P1_RANGE`, bits 13 to 24 (R6). -/
@[simp] abbrev p1Start : Nat := 13

/-- Both parity ranges hold 12 bits (R6). -/
@[simp] abbrev rangeLength : Nat := 12

/-- The first bit of `CN_FIELD`, bits 1 to 16 (R6). -/
@[simp] abbrev cnPos : Nat := 1

/-- The first bit of `FC_FIELD`, bits 17 to 24 (R6). -/
@[simp] abbrev fcPos : Nat := 17

/-- `DEC_MIN_BYTES`: DEC needs this many bytes (R6). -/
@[simp] abbrev decMinBytes : Nat := 4

/-- `T_SETTLE`, the settling time of the outputs: the one parameter the spec leaves OPEN (R7, R233, D12), in any unit
of time. It has no value here, so no proof can rest on one: DESIGN CHOICE, unsafe for a host that samples early (assumption 5). -/
opaque tSettle : Nat

end Sys2Proof.Config
end

