-- ==== Sys2Proof/Ports.lean ====
section
/-! DEFINITION. The value types the ports carry (10_state.md R25 to R29) and the input port set of the block
(30_encoding.md R61, R63, R64, R66). -/

namespace Sys2Proof

/-- The parity kind, one of two values (R29). -/
inductive ParityKind where
  | even
  | odd
deriving DecidableEq, Repr

/-- A credential: the pair of a facility code and a card number, each exactly as wide as its range (R26). -/
structure Credential where
  facilityCode : FacilityCode
  cardNumber : CardNumber
deriving DecidableEq, Repr

/-- The two error outcomes of DEC (R201). They record nothing beyond the code. -/
inductive DecodeError where
  /-- Fewer than 4 input bytes (R161). -/
  | tooShort
  /-- A recomputed P0 or P1 differs from its stored bit; not which (R163, R167). -/
  | parityMismatch
deriving DecidableEq, Repr

/-- A Decode Result: a credential in the `ok` case and only there (R28, R165). -/
inductive DecodeResult where
  | ok (c : Credential)
  | err (e : DecodeError)
deriving DecidableEq, Repr

/-- The response to one request, one constructor per operation (R60). -/
inductive Response where
  /-- ENC gives a frame. -/
  | frame (f : Frame)
  /-- DEC gives a Decode Result. -/
  | decoded (r : DecodeResult)
  /-- PAR gives one bit. -/
  | parity (b : Bit)
deriving DecidableEq, Repr

/-- The values of every input port in one evaluation. The ports of the operations that `op` does not select take
no part in it (R74, R211). -/
structure PortIn where
  /-- The operation select (R61). -/
  op : BitVec 2
  /-- `fc_in` of ENC (R63). -/
  fcIn : FacilityCode
  /-- `cn_in` of ENC (R63). -/
  cnIn : CardNumber
  /-- `din` of DEC: byte k stands at bits 8k+7 down to 8k (R64). -/
  din : BitVec 32
  /-- `dcount` of DEC: 0 to 3 is exactly that many bytes, 4 to 7 is 4 or more (R64). -/
  dcount : BitVec 3
  /-- `pval` of PAR (R66). -/
  pval : BitVec 32
  /-- `pstart` of PAR (R66). -/
  pstart : BitVec 5
  /-- `plen` of PAR (R66). -/
  plen : BitVec 6
  /-- `pkind` of PAR: 0 is even, 1 is odd (R66, R67). -/
  pkind : Bit
deriving DecidableEq, Repr

end Sys2Proof
end

