-- ==== Sys2Proof/Syntax.lean ====
section
/-! DEFINITION. The requests of the block at its ports (30_encoding.md R60): one constructor per row of
spec/opcode_table.json, with the operands of that operation's port group (R63, R64, R66). -/

namespace Sys2Proof

/-- One request. Its constructor is what `op` selects (R61), and its operands are that group's input ports. -/
inductive Instr where
  /-- ENC: `fc_in` and `cn_in` (R63, R140). -/
  | enc (fc : FacilityCode) (cn : CardNumber)
  /-- DEC: `din` and `dcount` (R64, R160). -/
  | dec (din : BitVec 32) (dcount : BitVec 3)
  /-- PAR: `pval`, `pstart`, `plen` and `pkind` (R66, R100). -/
  | par (value : BitVec 32) (start : BitVec 5) (length : BitVec 6) (kind : ParityKind)
deriving DecidableEq, Repr

end Sys2Proof
end

