-- ==== Sys2Proof/WellFormed.lean ====
section
/-! DEFINITION. Which requests the block admits. Field widths are in the types, so the one check left is PAR's
precondition (40_parity.md R102). -/

namespace Sys2Proof

/-- ENC and DEC admit every value of their ports (R145, R160); PAR admits the bit ranges inside a 32-bit value
(R66, R102). -/
def Instr.wellFormed : Instr → Bool
  | .enc _ _ => true
  | .dec _ _ => true
  | .par _ start length _ => decide (start.toNat + length.toNat ≤ 32)

/-- The request is admitted. -/
abbrev Instr.WellFormed (i : Instr) : Prop := i.wellFormed = true

end Sys2Proof
end

