-- ==== Sys2Proof/Decode.lean ====
section
/-! DEFINITION. Reading a request off the input ports and driving the ports with one (30_encoding.md R61 to R68), and
the model's one-word form of the port set (assumption 2). -/

namespace Sys2Proof

/-- The names under which reading a request rejects it. -/
inductive DecodeReject where
  /-- `op = 0b11` selects no operation (R62). -/
  | reservedOp
deriving DecidableEq, Repr

/-- The parity kind that `pkind` encodes: 0 is even, 1 is odd (R67). -/
def kindOfBit (b : Bit) : ParityKind := if b = 0#1 then .even else .odd

/-- The `pkind` code of a parity kind (R67). -/
def bitOfKind : ParityKind → Bit
  | .even => 0#1
  | .odd => 1#1

/-- The request that the input ports present. `op` alone decides the operation, before any operand is looked at, and
only the selected group's ports are read (R61, R62, R206). -/
def decode (p : PortIn) : Except DecodeReject Instr :=
  if p.op = 0b00#2 then .ok (.enc p.fcIn p.cnIn)
  else if p.op = 0b01#2 then .ok (.dec p.din p.dcount)
  else if p.op = 0b10#2 then .ok (.par p.pval p.pstart p.plen (kindOfBit p.pkind))
  else .error .reservedOp

/-- Every port driven low: the ports that a request does not select may hold anything, and the encoder drives them
low: DESIGN CHOICE, safe (assumption 7). -/
def PortIn.idle : PortIn := ⟨0#2, 0#8, 0#16, 0#32, 0#3, 0#32, 0#5, 0#6, 0#1⟩

/-- The ports driven with a request (R61, R63, R64, R66, R67). -/
def encode : Instr → PortIn
  | .enc fc cn => { PortIn.idle with op := 0b00#2, fcIn := fc, cnIn := cn }
  | .dec din dcount => { PortIn.idle with op := 0b01#2, din := din, dcount := dcount }
  | .par value start length kind =>
    { PortIn.idle with op := 0b10#2, pval := value, pstart := start, plen := length, pkind := bitOfKind kind }

/-- The port set as one word: `op` at bits 1 to 0, where the opcode table puts it, and above it the ports in the
order of R63, R64 and R66. DESIGN CHOICE: the spec keeps the ports apart and gives no word. Safe (assumption 2). -/
def PortIn.toWord (p : PortIn) : BitVec 105 :=
  (p.pkind ++ p.plen ++ p.pstart ++ p.pval ++ p.dcount ++ p.din ++ p.cnIn ++ p.fcIn ++ p.op).cast (by decide)

/-- The port set that a word lays out; the inverse of `PortIn.toWord`. -/
def PortIn.ofWord (w : BitVec 105) : PortIn where
  op := w.extractLsb' 0 2
  fcIn := w.extractLsb' 2 8
  cnIn := w.extractLsb' 10 16
  din := w.extractLsb' 26 32
  dcount := w.extractLsb' 58 3
  pval := w.extractLsb' 61 32
  pstart := w.extractLsb' 93 5
  plen := w.extractLsb' 98 6
  pkind := w.extractLsb' 104 1

/-- Reading a request from any word of 105 bits: total, rejecting by name. -/
def decodeWord (w : BitVec 105) : Except DecodeReject Instr := decode (PortIn.ofWord w)

/-- The word of a request. -/
def encodeWord (i : Instr) : BitVec 105 := (encode i).toWord

/-- The port set whose word has the low `nbits` bits of `w` and zeros above. -/
def PortIn.ofTableWord (nbits w : Nat) : PortIn := PortIn.ofWord (BitVec.ofNat 105 (w % 2 ^ nbits))

/-- The request read from a word that gives `nbits` bits, every bit above them 0. -/
def decodeTableWord (nbits w : Nat) : Option Instr :=
  match decode (PortIn.ofTableWord nbits w) with
  | .ok i => some i
  | .error _ => none

end Sys2Proof
end

