-- ==== Sys2Proof/Machine/State.lean ====
section
/-! DEFINITION. The state of a run of the block, as plain data. The block itself holds no state (10_state.md R20, R31):
what stands here is what the spec gives a run (60_exceptions.md R203, R212), the requests still to be served, the
responses given and the refusal mark. -/

namespace Sys2Proof.Machine

/-- The block has no fault outcome: every admitted request is answered (R200, R203). So no step faults, and this type
has no constructor. -/
inductive Fault where
deriving DecidableEq, Repr

/-- Why the model gives a request no meaning (R203). A refusal is no output of the hardware, and it errs toward
unprovable, so each is safe (assumption 9). -/
inductive Refusal where
  /-- Raised by an arm of exec whose instruction has no meaning yet; no arm raises it. Safe. -/
  | notModelled (mnemonic : String)
  /-- RESERVED_OP, raised by step on a request with `op = 0b11` (R62). Safe. -/
  | reservedOp
  /-- PARITY_RANGE, raised by PAR when `pstart + plen > 32` (R102). Safe. -/
  | parityRange
deriving DecidableEq, Repr

/-- A run of the block. -/
structure State where
  /-- The requests the host has presented and the block has not yet served, oldest first (R212). -/
  requests : List PortIn
  /-- The responses given, one per request served, oldest first: the observation of the run (R212). -/
  responses : List Response
  /-- The refusal mark: the reason of the first refused request of the run, kept for the whole run (R203). -/
  mark : Option Refusal
deriving DecidableEq, Repr

/-- The start of a run: no response (R231), no request presented and none refused. The block has no reset input and
no item with a reset value (R30, R230); the empty sequence and the clear mark are DESIGN CHOICE (assumptions 1
and 3). -/
def State.reset : State where
  requests := []
  responses := []
  mark := none

end Sys2Proof.Machine
end

