-- ==== Sys2Proof/Machine/Operands.lean ====
section
/-! DEFINITION. The bit-field mux and demux (41_field_mux.md R120 to R123), the wire bytes of a frame (20_memory.md
R41, R42) and the byte sequence that DEC's ports show (30_encoding.md R64, R65). -/

namespace Sys2Proof.Machine

/-- PACK: the fields placed in a frame whose parity positions and unused bits are zero (R120). -/
def pack (fc : FacilityCode) (cn : CardNumber) : Frame :=
  (fc.setWidth 32 <<< Config.fcPos) ||| (cn.setWidth 32 <<< Config.cnPos)

/-- PLACE_P0: the even parity bit written at bit 25 (R121). -/
def placeP0 (f : Frame) (p : Bit) : Frame := f ||| (p.setWidth 32 <<< Config.p0Pos)

/-- PLACE_P1: the odd parity bit written at bit 0 (R122). -/
def placeP1 (f : Frame) (p : Bit) : Frame := f ||| (p.setWidth 32 <<< Config.p1Pos)

/-- What UNPACK gives: the two fields and the two stored parity bits (R123). -/
structure Fields where
  fc : FacilityCode
  cn : CardNumber
  p0 : Bit
  p1 : Bit
deriving DecidableEq, Repr

/-- UNPACK: plain slices of a frame; bits 31 to 26 reach no output (R72, R123, R124). -/
def unpack (f : Frame) : Fields where
  fc := f.extractLsb' Config.fcPos 8
  cn := f.extractLsb' Config.cnPos 16
  p0 := f.extractLsb' Config.p0Pos 1
  p1 := f.extractLsb' Config.p1Pos 1

/-- The wire bytes of a frame, least-significant byte first (R41). -/
def wireBytes (f : Frame) : List Byte :=
  [f.extractLsb' 0 8, f.extractLsb' 8 8, f.extractLsb' 16 8, f.extractLsb' 24 8]

/-- The frame rebuilt from 4 bytes, the first least significant (R42). -/
def rebuild (b0 b1 b2 b3 : Byte) : Frame :=
  b0.setWidth 32 ||| (b1.setWidth 32 <<< 8) ||| (b2.setWidth 32 <<< 16) ||| (b3.setWidth 32 <<< 24)

/-- The bytes that DEC's ports show: the first `dcount` bytes of `din`, and all 4 when `dcount` is 4 to 7. The
bytes of `din` at positions of `dcount` or above are not among them (R64, R65). -/
def portBytes (din : BitVec 32) (dcount : BitVec 3) : List Byte := (wireBytes din).take dcount.toNat

end Sys2Proof.Machine
end

