-- ==== Sys2Proof/Machine/Ops.lean ====
section
/-! DEFINITION. The named operations over the state: taking the next request, giving a response, keeping the refusal
mark, reading the observation. The block takes no exception and returns from none (60_exceptions.md R200, R207). -/

namespace Sys2Proof.Machine

/-- Take the oldest request presented, if there is one (R212). -/
def State.takeRequest (s : State) : Option (PortIn × State) :=
  match s.requests with
  | [] => none
  | p :: rest => some (p, { s with requests := rest })

/-- Present a request to be served before those already waiting. -/
def State.presentFirst (s : State) (p : PortIn) : State := { s with requests := p :: s.requests }

/-- Present requests after those already waiting (R212). -/
def State.present (s : State) (ps : List PortIn) : State := { s with requests := s.requests ++ ps }

/-- Give one response. It joins the observation at its end, and nothing else changes: no operation has a side effect
(R49, R212). -/
def State.respond (s : State) (r : Response) : State := { s with responses := s.responses ++ [r] }

/-- Go on past a refused request: it gets no response, and the run keeps the reason of its first refusal (R203). -/
def State.passRefused (s : State) (r : Refusal) : State :=
  { s with requests := s.requests.tail, mark := some (s.mark.getD r) }

/-- The observation of a run: its responses, and none at all once a request has been refused (R212). -/
def State.observation (s : State) : Option (List Response) :=
  match s.mark with
  | none => some s.responses
  | some _ => none

/-- The model's refusal for a request that the decoder rejects (R62). -/
def refusalOf : DecodeReject → Refusal
  | .reservedOp => .reservedOp

end Sys2Proof.Machine
end

