-- ==== Sys2Proof/Machine/Parity.lean ====
section
/-! DEFINITION. The parity-bit generator and the meaning of PAR (40_parity.md). -/

namespace Sys2Proof.Machine

/-- XOR_REDUCE: the exclusive OR of the `length` bits of `v` from bit `start` on; 0 when there are none (R9, R100). -/
def xorReduce (v : BitVec 32) (start : Nat) : Nat → Bool
  | 0 => false
  | n + 1 => xorReduce v start n ^^ v.getLsbD (start + n)

/-- The parity bit of a range inside bits 0 to 31: the XOR of its bits, inverted for odd (R100). -/
def parity (v : BitVec 32) (start length : Nat) : ParityKind → Bit
  | .even => BitVec.ofBool (xorReduce v start length)
  | .odd => BitVec.ofBool (!xorReduce v start length)

/-- P0_calc: the generator's fixed use over bits 1 to 12, even (R104). -/
def p0Calc (f : Frame) : Bit := parity f Config.p0Start Config.rangeLength .even

/-- P1_calc: the generator's fixed use over bits 13 to 24, odd (R104). -/
def p1Calc (f : Frame) : Bit := parity f Config.p1Start Config.rangeLength .odd

/-- PAR (R100): one parity bit. A range that passes bit 31 breaks the precondition, and the request is refused, with
no value given to it (R102). -/
def execPar (value : BitVec 32) (start : BitVec 5) (length : BitVec 6) (kind : ParityKind) (s : State) :
    Host.Outcome State Fault Refusal :=
  if start.toNat + length.toNat ≤ 32 then
    .next (s.respond (.parity (parity value start.toNat length.toNat kind)))
  else .refused .parityRange

end Sys2Proof.Machine
end

