-- ==== Sys2Proof/Machine/Decoder.lean ====
section
/-! DEFINITION. The decoder and the meaning of DEC (43_decode.md). -/

namespace Sys2Proof.Machine

/-- The check and the extraction on a rebuilt frame: both parities are recomputed and compared with the stored bits;
bits 31 to 26 are not read (R163, R164, R166): UNVERIFIED, unsafe if the reference code rejects them (assumption 10). -/
def decodeFrame (f : Frame) : DecodeResult :=
  let u := unpack f
  if p0Calc f ≠ u.p0 ∨ p1Calc f ≠ u.p1 then .err .parityMismatch else .ok ⟨u.fc, u.cn⟩

/-- DEC(bs) over a byte sequence of any length: too short below 4 bytes, and nothing past the fourth byte is read
(R160 to R162). -/
def decodeBytes : List Byte → DecodeResult
  | b0 :: b1 :: b2 :: b3 :: _ => decodeFrame (rebuild b0 b1 b2 b3)
  | _ => .err .tooShort

/-- DEC in its port form (R160): the Decode Result of the bytes the ports show (R65). Both errors are results, after
which the block goes on (R201, R207). -/
def execDec (din : BitVec 32) (dcount : BitVec 3) (s : State) : Host.Outcome State Fault Refusal :=
  .next (s.respond (.decoded (decodeBytes (portBytes din dcount))))

end Sys2Proof.Machine
end

