-- ==== Sys2Proof/Machine/Encoder.lean ====
section
/-! DEFINITION. The encoder and the meaning of ENC (42_encode.md). -/

namespace Sys2Proof.Machine

/-- ENC(fc, cn) in the reference order: P0 is computed from the packed fields and placed, then P1 from the frame that
holds P0, and placed (R140). The layout is the spec's literal one (R71): UNVERIFIED, unsafe for a device of the
conventional layout (assumption 11). -/
def encodeFrame (fc : FacilityCode) (cn : CardNumber) : Frame :=
  let packed := pack fc cn
  let withP0 := placeP0 packed (p0Calc packed)
  placeP1 withP0 (p1Calc withP0)

/-- ENC (R140): the frame of a credential. Every value of the ports is encoded (R145). -/
def execEnc (fc : FacilityCode) (cn : CardNumber) (s : State) : Host.Outcome State Fault Refusal :=
  .next (s.respond (.frame (encodeFrame fc cn)))

end Sys2Proof.Machine
end

