-- ==== Sys2Proof/Machine/Dispatch.lean ====
section
/-! DEFINITION. One arm per request: ENC, DEC, PAR (30_encoding.md R60, R61). -/

namespace Sys2Proof.Machine

def exec (i : Instr) (s : State) : Host.Outcome State Fault Refusal :=
  match i with
  | .enc fc cn => Sys2Proof.Machine.execEnc fc cn s
  | .dec din dcount => Sys2Proof.Machine.execDec din dcount s
  | .par value start length kind => Sys2Proof.Machine.execPar value start length kind s

end Sys2Proof.Machine
end

