-- ==== Sys2Proof/Machine/Step.lean ====
section
/-! DEFINITION. One step is one evaluation (60_exceptions.md R203, R212). -/

namespace Sys2Proof.Machine

/-- One evaluation, atomic (R48): the oldest request presented is taken, read off its ports and served. A reserved `op`
is refused before any operand is looked at (R206). With no request presented the run stands still: DESIGN CHOICE, safe (assumption 4). -/
def step (s : State) : Host.Outcome State Fault Refusal :=
  match s.takeRequest with
  | none => .next s
  | some (p, s') =>
    match decode p with
    | .ok i => exec i s'
    | .error r => .refused (refusalOf r)

/-- `s` with the request of a table word presented first, so that the very next step serves it. -/
def State.withFetchWord (s : State) (nbits w : Nat) : State := s.presentFirst (PortIn.ofTableWord nbits w)

end Sys2Proof.Machine
end

