-- ==== Sys2Proof/Machine/HostSide.lean ====
section
/-! DEFINITION. The host's side (30_encoding.md R60, R65; 60_exceptions.md R203, R211, R212): requests as the source
states them, driving the ports with one, and serving a whole sequence of them. -/

namespace Sys2Proof.Machine

/-- A request as the source states it, DEC over a byte sequence of any length (R60). -/
inductive Request where
  | enc (fc : FacilityCode) (cn : CardNumber)
  | dec (bs : List Byte)
  | par (value : BitVec 32) (start : BitVec 5) (length : BitVec 6) (kind : ParityKind)
deriving DecidableEq, Repr

/-- What the host must keep to when it shows a byte sequence on DEC's ports: `dcount` is the number of bytes below 4,
and 4 to 7 for 4 or more, and the bytes present among the first 4 stand in `din`. Nothing is asked of the other bytes
of `din` (R64, R65, R211). -/
def Shows (bs : List Byte) (din : BitVec 32) (dcount : BitVec 3) : Prop :=
  (if bs.length < Config.decMinBytes then dcount.toNat = bs.length else Config.decMinBytes ≤ dcount.toNat) ∧
    ∀ k, k < min bs.length Config.decMinBytes → bs[k]? = some (din.extractLsb' (8 * k) 8)

/-- `dcount` as R65 has the host drive it: the number of bytes, at most 7. -/
def countOf (bs : List Byte) : BitVec 3 := BitVec.ofNat 3 (min bs.length 7)

/-- `din` as R65 has the host drive it, with the bytes that are not present taken from `fill`, which may be
anything. -/
def dinOf (fill : BitVec 32) (bs : List Byte) : BitVec 32 :=
  rebuild (bs.getD 0 (fill.extractLsb' 0 8)) (bs.getD 1 (fill.extractLsb' 8 8)) (bs.getD 2 (fill.extractLsb' 16 8))
    (bs.getD 3 (fill.extractLsb' 24 8))

/-- The ports driven with a request; `fill` is what stands in the bytes of `din` that are not present. -/
def Request.drive (fill : BitVec 32) : Request → PortIn
  | .enc fc cn => encode (.enc fc cn)
  | .dec bs => encode (.dec (dinOf fill bs) (countOf bs))
  | .par value start length kind => encode (.par value start length kind)

/-- One request of the host's sequence served. Past a refused one the host goes on, and the run keeps the mark
(R203; program 5 of 95_test_vectors.md): DESIGN CHOICE, safe (assumption 3). -/
def serveNext (s : State) : State :=
  match step s with
  | .next s' => s'
  | .fault f => nomatch f
  | .refused r => s.passRefused r

/-- `n` requests served. -/
def serveTimes : Nat → State → State
  | 0, s => s
  | n + 1, s => serveTimes n (serveNext s)

/-- Every request presented so far served: the run ends when the host presents no further request (R212). -/
def serveAll (s : State) : State := serveTimes s.requests.length s

/-- The run of a sequence of requests, from the start (R212). -/
def runOf (ps : List PortIn) : State := serveAll (State.reset.present ps)

end Sys2Proof.Machine
end

