-- ==== Sys2Proof/Machine/Assembly.lean ====
section
/-! DEFINITION. The text form of requests and responses (30_encoding.md R75), over lists of characters. HOST lines are
computations of the test harness and no request, so they do not parse. What R75 leaves open of the text is DESIGN
CHOICE, safe (assumption 8). -/

namespace Sys2Proof.Machine

/-- The pieces of a line. -/
inductive Token where
  | word (cs : List Char)
  | comma
  | openBracket
  | closeBracket
deriving DecidableEq, Repr

/-- A word whose characters were collected last first, if there is one, before the tokens after it. -/
def closeWord : List Char → List Token → List Token
  | [], ts => ts
  | cs, ts => .word cs.reverse :: ts

/-- A line cut into tokens; a `;` starts a comment, which ends the line (R75). -/
def tokens : List Char → List Char → List Token
  | cs, [] => closeWord cs []
  | cs, c :: rest =>
    if c = ';' then closeWord cs []
    else if c = ' ' then closeWord cs (tokens [] rest)
    else if c = ',' then closeWord cs (.comma :: tokens [] rest)
    else if c = '[' then closeWord cs (.openBracket :: tokens [] rest)
    else if c = ']' then closeWord cs (.closeBracket :: tokens [] rest)
    else tokens (c :: cs) rest

/-- The value of one digit, in a base of at most 16. -/
def digitValue (base : Nat) (c : Char) : Option Nat :=
  let n := c.toNat
  let d := if 48 ≤ n ∧ n ≤ 57 then n - 48
    else if 65 ≤ n ∧ n ≤ 70 then n - 55
    else if 97 ≤ n ∧ n ≤ 102 then n - 87
    else 16
  if d < base then some d else none

/-- The value of digits read on from `acc`, the most significant first. -/
def digitsValue (base : Nat) : Nat → List Char → Option Nat
  | acc, [] => some acc
  | acc, c :: cs =>
    match digitValue base c with
    | some d => digitsValue base (acc * base + d) cs
    | none => none

/-- A number: decimal, or hexadecimal with the prefix 0x, or binary with the prefix 0b (R75). -/
def number : List Char → Option Nat
  | [] => none
  | '0' :: 'x' :: c :: cs => digitsValue 16 0 (c :: cs)
  | '0' :: 'b' :: c :: cs => digitsValue 2 0 (c :: cs)
  | c :: cs => digitsValue 10 0 (c :: cs)

/-- A number as a value of `w` bits. One that does not fit is no operand: it is never truncated (R26, R126). -/
def operand (w : Nat) (cs : List Char) : Option (BitVec w) :=
  match number cs with
  | some n => if n < 2 ^ w then some (BitVec.ofNat w n) else none
  | none => none

/-- The bytes after the first of a byte sequence, to its closing bracket and the end of the line. -/
def moreBytes : List Token → Option (List Byte)
  | [.closeBracket] => some []
  | .comma :: .word cs :: rest =>
    match operand 8 cs, moreBytes rest with
    | some b, some bs => some (b :: bs)
    | _, _ => none
  | _ => none

/-- The bytes of a sequence after its opening bracket (R75). -/
def byteSequence : List Token → Option (List Byte)
  | [.closeBracket] => some []
  | .word cs :: rest =>
    match operand 8 cs, moreBytes rest with
    | some b, some bs => some (b :: bs)
    | _, _ => none
  | _ => none

/-- EVEN or ODD (R75). -/
def kindWord (cs : List Char) : Option ParityKind :=
  if cs = ['E', 'V', 'E', 'N'] then some .even else if cs = ['O', 'D', 'D'] then some .odd else none

/-- `ENC fc, cn` (R75). -/
def parseEnc : List Token → Option Request
  | [.word fc, .comma, .word cn] =>
    match operand 8 fc, operand 16 cn with
    | some fc, some cn => some (.enc fc cn)
    | _, _ => none
  | _ => none

/-- `DEC [b0, b1, ..., bn-1]` (R75). -/
def parseDec : List Token → Option Request
  | .openBracket :: rest => (byteSequence rest).map .dec
  | _ => none

/-- `PAR value, start, length, EVEN|ODD` (R75). Every value of the ports can be written, so that the requests R102
refuses can be too. -/
def parsePar : List Token → Option Request
  | [.word v, .comma, .word st, .comma, .word len, .comma, .word k] =>
    match operand 32 v, operand 5 st, operand 6 len, kindWord k with
    | some v, some st, some len, some k => some (.par v st len k)
    | _, _, _, _ => none
  | _ => none

/-- The request a line writes, if it writes one (R75). -/
def parseRequest (line : List Char) : Option Request :=
  match tokens [] line with
  | .word m :: rest =>
    if m = ['E', 'N', 'C'] then parseEnc rest
    else if m = ['D', 'E', 'C'] then parseDec rest
    else if m = ['P', 'A', 'R'] then parsePar rest
    else none
  | _ => none

/-- One hexadecimal digit, in capitals. -/
def hexDigit (d : BitVec 4) : Char :=
  Char.ofNat (if d.toNat < 10 then 48 + d.toNat else 55 + d.toNat)

/-- A byte written 0xHH. -/
def showByte (b : Byte) : List Char := ['0', 'x', hexDigit (b.extractLsb' 4 4), hexDigit (b.extractLsb' 0 4)]

/-- A frame written 0xHHHHHHHH (R75). -/
def showFrame (f : Frame) : List Char :=
  ['0', 'x'] ++ (List.range 8).map fun k => hexDigit (f.extractLsb' (28 - 4 * k) 4)

/-- A number written in decimal. -/
def showNat (n : Nat) : List Char := Nat.toDigits 10 n

/-- The four wire bytes written [b0, b1, b2, b3] (R75). -/
def showBytes (bs : List Byte) : List Char := ['['] ++ List.intercalate [',', ' '] (bs.map showByte) ++ [']']

/-- The text of a response: a frame and its bytes; OK with the credential, TOO_SHORT or PARITY_MISMATCH; 0 or 1
(R75). -/
def showResponse : Response → List Char
  | .frame f => showFrame f ++ [' '] ++ showBytes (wireBytes f)
  | .decoded (.ok c) =>
    ['O', 'K', '('] ++ showNat c.facilityCode.toNat ++ [',', ' '] ++ showNat c.cardNumber.toNat ++ [')']
  | .decoded (.err .tooShort) => ['T', 'O', 'O', '_', 'S', 'H', 'O', 'R', 'T']
  | .decoded (.err .parityMismatch) => "PARITY_MISMATCH".toList
  | .parity b => showNat b.toNat

end Sys2Proof.Machine
end

