-- ==== Sys2Proof/Machine/Flags.lean ====
section
/-! DEFINITION. The block has no flags (10_state.md R23). What comes nearest, the `status` output of one DEC
evaluation, is here, with the other output ports (30_encoding.md R63, R64, R66, R68). -/

namespace Sys2Proof.Machine

/-- The status of one DEC evaluation. The fourth code, 0b11, is never driven, so it has no constructor (R68). -/
inductive Status where
  | ok
  | tooShort
  | parityMismatch
deriving DecidableEq, Repr

/-- The `status` code (R68). -/
def Status.code : Status → BitVec 2
  | .ok => 0b00#2
  | .tooShort => 0b01#2
  | .parityMismatch => 0b10#2

/-- The status of a Decode Result (R68). -/
def statusOf : DecodeResult → Status
  | .ok _ => .ok
  | .err .tooShort => .tooShort
  | .err .parityMismatch => .parityMismatch

/-- The credential a Decode Result carries, in the OK case only (R165). -/
def credentialOf : DecodeResult → Option Credential
  | .ok c => some c
  | .err _ => none

/-- The output ports after one evaluation. A port of another operation, and `fc_out` and `cn_out` when the status is
not OK, hold no value (R68, R165): DESIGN CHOICE, safe (assumption 12). -/
structure PortOut where
  /-- `frame_out` (R63). -/
  frameOut : Option Frame
  /-- `status` (R64). -/
  status : Option (BitVec 2)
  /-- `fc_out` (R64). -/
  fcOut : Option FacilityCode
  /-- `cn_out` (R64). -/
  cnOut : Option CardNumber
  /-- `pbit` (R66). -/
  pbit : Option Bit
deriving DecidableEq, Repr

/-- The output ports that show a response, all from one evaluation (R235). -/
def portsOut : Response → PortOut
  | .frame f => ⟨some f, none, none, none, none⟩
  | .decoded r =>
    ⟨none, some (statusOf r).code, (credentialOf r).map (·.facilityCode), (credentialOf r).map (·.cardNumber), none⟩
  | .parity b => ⟨none, none, none, none, some b⟩

end Sys2Proof.Machine
end

