-- ==== Sys2Proof/Safety.lean ====
section
/-! DEFINITION. What counts as an admitted request, a sound run and a settled sample, in the terms the claims use. -/

namespace Sys2Proof.Safety

open Sys2Proof.Machine

/-- The ports present an admitted request: a selected operation, and a parity range inside 32 bits (R203, R211). -/
def admitted (p : PortIn) : Bool :=
  match decode p with
  | .ok i => i.wellFormed
  | .error _ => false

/-- The refusal with which the block's model turns a request away, if it does (R203). -/
def refusalFor (p : PortIn) : Option Refusal :=
  match decode p with
  | .ok i => if i.wellFormed then none else some .parityRange
  | .error .reservedOp => some .reservedOp

/-- A frame that ENC can have made: its unused bits are zero and DEC accepts it with the fields it holds (R144,
R146). -/
def soundFrame (f : Frame) : Bool :=
  decide (f.extractLsb' 26 6 = 0#6) && decide (decodeFrame f = .ok ⟨(unpack f).fc, (unpack f).cn⟩)

/-- A response the block can have given. -/
def soundResponse : Response → Bool
  | .frame f => soundFrame f
  | .decoded _ => true
  | .parity _ => true

/-- A refusal mark a run of the block can carry: none, RESERVED_OP or PARITY_RANGE (R203). -/
def soundMark (m : Option Refusal) : Bool :=
  decide (m = none ∨ m = some .reservedOp ∨ m = some .parityRange)

/-- The invariant of a run: every frame in the observation is an encoder output, and the mark is one of R203's. -/
def RunInv (s : State) : Prop :=
  (∀ r ∈ s.responses, soundResponse r = true) ∧ soundMark s.mark = true

/-- What the run of one request alone gives (R210, R212): its one response, or nothing where it is refused. -/
def alone (p : PortIn) : List Response := (runOf [p]).responses

/-- The first refusal among requests served in order (R203). -/
def firstRefusal : List PortIn → Option Refusal
  | [] => none
  | p :: ps =>
    match refusalFor p with
    | some r => some r
    | none => firstRefusal ps

/-- A host that presents a request and holds its inputs stable for `heldFor` before it samples the outputs. -/
structure Presentation where
  ports : PortIn
  heldFor : Nat
deriving DecidableEq, Repr

/-- The host keeps its duties: it waits out T_SETTLE and presents an admitted request (R211, R233; assumption 5). -/
def Presentation.KeepsDuties (h : Presentation) : Prop :=
  Config.tSettle ≤ h.heldFor ∧ admitted h.ports = true

/-- The output ports the host samples. Sampled before T_SETTLE they may be anything, and the model gives no value
(R233); after it they show the response of the one evaluation (R235). -/
def Presentation.sample (h : Presentation) : Option PortOut :=
  if Config.tSettle ≤ h.heldFor then (alone h.ports).head?.map portsOut else none

/-- A binary tree of XOR gates over bit positions, or no gate at all: a hardware form of the generator (R101). -/
inductive XorTree where
  | zero
  | bit (i : Nat)
  | gate (l r : XorTree)
deriving DecidableEq, Repr

/-- The bit positions a tree reads, left to right. -/
def XorTree.leaves : XorTree → List Nat
  | .zero => []
  | .bit i => [i]
  | .gate l r => l.leaves ++ r.leaves

/-- The output of a tree on a value. -/
def XorTree.eval (v : BitVec 32) : XorTree → Bool
  | .zero => false
  | .bit i => v.getLsbD i
  | .gate l r => l.eval v ^^ r.eval v

/-- `XOR(v)`: the exclusive OR of all bits of `v` (R140). -/
def xorAll {w : Nat} (v : BitVec w) : Bit :=
  BitVec.ofBool ((List.range w).foldl (fun x i => x ^^ v.getLsbD i) false)

/-- How many of the `n` bits of `f` from bit `lo` on are 1. -/
def ones (f : BitVec 32) (lo n : Nat) : Nat := (List.range' lo n).countP f.getLsbD

/-- A frame with one bit flipped. -/
def flipBit (f : Frame) (i : Nat) : Frame := f ^^^ (1#32 <<< i)

end Sys2Proof.Safety
end

