-- ==== Sys2Proof/Certificates/Slice0/Obligations.lean ====
section
/-! DEFINITION. The statements for the provers, from the numbered rules of spec/. -/

open Sys2Proof Sys2Proof.Machine Sys2Proof.Safety

/-- R61: the operation select names the operation, and the request's operands are that operation's ports. -/
def Obligations.OpSelectsOperation : Prop :=
  ∀ p : PortIn,
    (p.op = 0b00#2 → decode p = .ok (.enc p.fcIn p.cnIn)) ∧
    (p.op = 0b01#2 → decode p = .ok (.dec p.din p.dcount)) ∧
    (p.op = 0b10#2 → p.pkind = 0#1 → decode p = .ok (.par p.pval p.pstart p.plen .even)) ∧
    (p.op = 0b10#2 → p.pkind = 1#1 → decode p = .ok (.par p.pval p.pstart p.plen .odd)) ∧
    (p.op = 0b11#2 → decode p = .error .reservedOp)

/-- Words written out from the op codes of R61 and the port groups of R63, R64 and R66 decode to their requests. The
places of the ports above `op` are the model's choice (assumption 2). -/
def Obligations.WrittenWordsDecode : Prop :=
  decodeTableWord 105 (0b00 + 0x7B * 2 ^ 2 + 0xB26E * 2 ^ 10) = some (.enc 0x7B#8 0xB26E#16) ∧
  decodeTableWord 105 (0b01 + 0x00F764DC * 2 ^ 26 + 4 * 2 ^ 58) = some (.dec 0x00F764DC#32 4#3) ∧
  decodeTableWord 105 (0b10 + 0x0E * 2 ^ 61 + 31 * 2 ^ 93 + 2 * 2 ^ 98 + 2 ^ 104) = some (.par 0x0E#32 31#5 2#6 .odd) ∧
  decodeTableWord 8 0b00 = some (.enc 0#8 0#16) ∧
  decodeTableWord 8 0b01 = some (.dec 0#32 0#3) ∧
  decodeTableWord 8 0b10 = some (.par 0#32 0#5 0#6 .even) ∧
  decodeTableWord 8 0b11 = none

/-- Decoding the word of any request gives the request back, with every operand at every value its port admits. The
word is the model's own form of the ports (assumption 2). -/
def Obligations.DecodeOfEncodeIsTheRequest : Prop :=
  ∀ i : Instr, decodeWord (encodeWord i) = .ok i

/-- Encoding a request that was read off the ports drives the select and the selected group as they were. -/
def Obligations.EncodeOfDecodeDrivesTheSelectedPorts : Prop :=
  ∀ (p : PortIn) (i : Instr), decode p = .ok i →
    (encode i).op = p.op ∧
    match i with
    | .enc _ _ => (encode i).fcIn = p.fcIn ∧ (encode i).cnIn = p.cnIn
    | .dec _ _ => (encode i).din = p.din ∧ (encode i).dcount = p.dcount
    | .par _ _ _ _ =>
      (encode i).pval = p.pval ∧ (encode i).pstart = p.pstart ∧ (encode i).plen = p.plen ∧ (encode i).pkind = p.pkind

/-- The word of the port set and the port set lay out the same bits, both ways round (assumption 2). -/
def Obligations.PortWordLosesNoBit : Prop :=
  (∀ p : PortIn, PortIn.ofWord p.toWord = p) ∧ ∀ w : BitVec 105, (PortIn.ofWord w).toWord = w

/-- R62: a request with op = 0b11 is refused with RESERVED_OP in every state, whatever its operand ports hold. -/
def Obligations.ReservedOpIsRefused : Prop :=
  ∀ (s : State) (p : PortIn) (rest : List PortIn),
    s.requests = p :: rest → p.op = 0b11#2 → step s = .refused .reservedOp

/-- A step takes the oldest request presented and runs it; a table word placed for the next step is what that step
runs (how a request comes to be presented is assumption 6). -/
def Obligations.StepRunsTheDecodedRequest : Prop :=
  (∀ (s : State) (p : PortIn) (rest : List PortIn) (i : Instr),
    s.requests = p :: rest → decode p = .ok i → step s = exec i { s with requests := rest }) ∧
  ∀ (s : State) (nbits w : Nat) (i : Instr),
    decodeTableWord nbits w = some i → step (s.withFetchWord nbits w) = exec i s

/-- With no request presented a step changes nothing: the model's choice (assumption 4). -/
def Obligations.StepWithoutRequestStandsStill : Prop :=
  ∀ s : State, s.requests = [] → step s = .next s

/-- A run starts with no response, and the first response is that of the first request (R231). Its observation (R212) is
then the empty one, since the refusal mark (R203) is clear at reset, which is the model's choice (assumption 3). -/
def Obligations.RunStartsWithNoResponse : Prop :=
  State.reset.responses = [] ∧ State.reset.observation = some [] ∧
  ∀ (p : PortIn) (ps : List PortIn) (r : Response), alone p = [r] → (runOf (p :: ps)).responses.head? = some r

/-- R140: ENC answers, for every credential and in every state, the frame of the closed form, and changes nothing
else; its op code is 00 and its wire bytes are the frame's slices, least-significant first. -/
def Obligations.EncGivesTheClosedForm : Prop :=
  ∀ (fc : FacilityCode) (cn : CardNumber) (s : State),
    let f : Frame := 0b000000#6 ++ xorAll (cn.extractLsb' 0 12) ++ fc ++ cn ++ ~~~xorAll (fc ++ cn.extractLsb' 12 4)
    exec (.enc fc cn) s = .next { s with responses := s.responses ++ [.frame f] } ∧
    wireBytes f = [f.extractLsb' 0 8, f.extractLsb' 8 8, f.extractLsb' 16 8, f.extractLsb' 24 8] ∧
    (encode (.enc fc cn)).op = 0b00#2

/-- R69: the layout of the frame ENC answers, bit by bit, with each parity bit completing the count of its range. -/
def Obligations.EncFrameLayout : Prop :=
  ∀ (fc : FacilityCode) (cn : CardNumber) (s : State), ∃ f : Frame,
    exec (.enc fc cn) s = .next (s.respond (.frame f)) ∧
    (∀ k, k < 16 → f.getLsbD (1 + k) = cn.getLsbD k) ∧
    (∀ k, k < 8 → f.getLsbD (17 + k) = fc.getLsbD k) ∧
    (∀ k, 26 ≤ k → f.getLsbD k = false) ∧
    (ones f 1 12 + (f.getLsbD 25).toNat) % 2 = 0 ∧
    (ones f 13 12 + (f.getLsbD 0).toNat) % 2 = 1

/-- R141, R142: P0 depends on card number bits 0 to 11 alone, and P1 on card number bits 12 to 15 and the facility
code alone. -/
def Obligations.EncParityBitsOfTheCredential : Prop :=
  ∀ (fc : FacilityCode) (cn : CardNumber),
    (encodeFrame fc cn).extractLsb' 25 1 = xorAll (cn.extractLsb' 0 12) ∧
    (encodeFrame fc cn).extractLsb' 0 1 = ~~~xorAll (fc ++ cn.extractLsb' 12 4)

/-- R144: byte 3 is at most 0x03; the fields stand in the frame; distinct credentials give distinct responses. -/
def Obligations.EncOutputProperties : Prop :=
  ∀ (fc : FacilityCode) (cn : CardNumber),
    (∀ s : State, exec (.enc fc cn) s = .next (s.respond (.frame (encodeFrame fc cn)))) ∧
    (encodeFrame fc cn).extractLsb' 26 6 = 0#6 ∧
    (∃ b0 b1 b2 b3 : Byte, wireBytes (encodeFrame fc cn) = [b0, b1, b2, b3] ∧ b3.toNat ≤ 3) ∧
    (encodeFrame fc cn).extractLsb' 1 16 = cn ∧
    (encodeFrame fc cn).extractLsb' 17 8 = fc ∧
    ∀ (fc' : FacilityCode) (cn' : CardNumber), encodeFrame fc cn = encodeFrame fc' cn' → fc = fc' ∧ cn = cn'

/-- R143: computing P1 before P0, or both at once from PACK(fc, cn), gives the frame of the reference order. -/
def Obligations.PlacementOrderDoesNotMatter : Prop :=
  ∀ (fc : FacilityCode) (cn : CardNumber),
    let packed := pack fc cn
    let withP1 := placeP1 packed (p1Calc packed)
    placeP0 withP1 (p0Calc withP1) = encodeFrame fc cn ∧
    placeP1 (placeP0 packed (p0Calc packed)) (p1Calc packed) = encodeFrame fc cn

/-- R120: PACK as a concatenation, and its corner cases and example. -/
def Obligations.PackIsTheConcatenation : Prop :=
  (∀ (fc : FacilityCode) (cn : CardNumber), pack fc cn = 0b0000000#7 ++ fc ++ cn ++ 0b0#1) ∧
  pack 0#8 0#16 = 0x00000000#32 ∧ pack 255#8 65535#16 = 0x01FFFFFE#32 ∧ pack 123#8 45678#16 = 0x00F764DC#32

/-- R125: UNPACK takes back exactly what PACK and the two placements put in, and they rebuild every frame whose unused
bits are zero. -/
def Obligations.UnpackInvertsPackAndPlace : Prop :=
  (∀ (fc : FacilityCode) (cn : CardNumber) (a b : Bit),
    unpack (placeP1 (placeP0 (pack fc cn) a) b) = ⟨fc, cn, a, b⟩) ∧
  (∀ (fc fc' : FacilityCode) (cn cn' : CardNumber), pack fc cn = pack fc' cn' → fc = fc' ∧ cn = cn') ∧
  ∀ f : Frame, f.extractLsb' 26 6 = 0#6 →
    placeP1 (placeP0 (pack (unpack f).fc (unpack f).cn) (unpack f).p0) (unpack f).p1 = f

/-- R124: PACK drives bits 31 to 26 to zero, neither placement writes one of them, and UNPACK reads none of them. -/
def Obligations.UnusedBitsAreUntouched : Prop :=
  (∀ (fc : FacilityCode) (cn : CardNumber), (pack fc cn).extractLsb' 26 6 = 0#6) ∧
  (∀ (f : Frame) (a : Bit), (placeP0 f a).extractLsb' 26 6 = f.extractLsb' 26 6 ∧
    (placeP1 f a).extractLsb' 26 6 = f.extractLsb' 26 6) ∧
  ∀ f g : Frame, f.extractLsb' 0 26 = g.extractLsb' 0 26 → unpack f = unpack g

/-- R41, R42: serializing and rebuilding are inverse, and bit j of byte k is frame bit 8k+j. -/
def Obligations.WireBytesAndFrameAgree : Prop :=
  (∀ f : Frame, ∃ b0 b1 b2 b3 : Byte, wireBytes f = [b0, b1, b2, b3] ∧ rebuild b0 b1 b2 b3 = f ∧
    ∀ j, j < 8 → b0.getLsbD j = f.getLsbD j ∧ b1.getLsbD j = f.getLsbD (8 + j) ∧
      b2.getLsbD j = f.getLsbD (16 + j) ∧ b3.getLsbD j = f.getLsbD (24 + j)) ∧
  ∀ b0 b1 b2 b3 : Byte, rebuild b0 b1 b2 b3 = b3 ++ b2 ++ b1 ++ b0 ∧ wireBytes (rebuild b0 b1 b2 b3) = [b0, b1, b2, b3]

/-- R100: PAR answers the XOR of the selected bits, inverted for odd, and changes nothing else; a range past bit 31
is refused. Its op code is 10. -/
def Obligations.ParGivesTheParityOfTheRange : Prop :=
  ∀ (v : BitVec 32) (start : BitVec 5) (length : BitVec 6) (kind : ParityKind) (s : State),
    (exec (.par v start length kind) s =
      if start.toNat + length.toNat ≤ 32 then
        .next { s with responses := s.responses ++
          [.parity (xorAll ((v >>> start.toNat).setWidth length.toNat) ^^^ (if kind = .odd then 1#1 else 0#1))] }
      else .refused .parityRange) ∧
    (encode (.par v start length kind)).op = 0b10#2

/-- R103: with length 0 PAR answers 0 for even and 1 for odd, at every start. -/
def Obligations.ParOfNoBits : Prop :=
  ∀ (v : BitVec 32) (start : BitVec 5) (s : State),
    exec (.par v start 0#6 .even) s = .next (s.respond (.parity 0#1)) ∧
    exec (.par v start 0#6 .odd) s = .next (s.respond (.parity 1#1))

/-- R102: PAR is refused with PARITY_RANGE exactly outside its precondition, and is then given no value. -/
def Obligations.ParOutsideItsPreconditionIsRefused : Prop :=
  ∀ (v : BitVec 32) (start : BitVec 5) (length : BitVec 6) (kind : ParityKind) (s : State),
    (exec (.par v start length kind) s = .refused .parityRange ↔ 32 < start.toNat + length.toNat) ∧
    (32 < start.toNat + length.toNat → ∀ t, exec (.par v start length kind) s ≠ .next t)

/-- R105: the count of 1-bits over the range, with PAR's bit, comes out as the kind names. -/
def Obligations.ParCompletesTheCount : Prop :=
  ∀ (v : BitVec 32) (start : BitVec 5) (length : BitVec 6) (s : State),
    start.toNat + length.toNat ≤ 32 →
      (∃ b : Bit, exec (.par v start length .even) s = .next (s.respond (.parity b)) ∧
        (ones v start.toNat length.toNat + b.toNat) % 2 = 0) ∧
      ∃ b : Bit, exec (.par v start length .odd) s = .next (s.respond (.parity b)) ∧
        (ones v start.toNat length.toNat + b.toNat) % 2 = 1

/-- R101: every tree of XOR gates over the bits of the range, in any grouping and any order, gives PAR's bit. -/
def Obligations.AnyXorTreeGivesParsBit : Prop :=
  ∀ (v : BitVec 32) (start : BitVec 5) (length : BitVec 6) (kind : ParityKind) (t : XorTree) (s : State),
    start.toNat + length.toNat ≤ 32 → t.leaves.Perm (List.range' start.toNat length.toNat) →
      exec (.par v start length kind) s =
        .next (s.respond (.parity (BitVec.ofBool (t.eval v) ^^^ (if kind = .odd then 1#1 else 0#1))))

/-- R104: the two fixed instances are PAR over their ranges, in frame bits and in credential fields, and read neither
bit 0, bit 25 nor bits 26 to 31. -/
def Obligations.FixedParityInstances : Prop :=
  (∀ (f : Frame) (s : State),
    exec (.par f 1#5 12#6 .even) s = .next (s.respond (.parity (p0Calc f))) ∧
    exec (.par f 13#5 12#6 .odd) s = .next (s.respond (.parity (p1Calc f)))) ∧
  (∀ f : Frame,
    p0Calc f = xorAll (f.extractLsb' 1 12) ∧ p1Calc f = ~~~xorAll (f.extractLsb' 13 12) ∧
    p0Calc f = xorAll ((unpack f).cn.extractLsb' 0 12) ∧
    p1Calc f = ~~~xorAll ((unpack f).fc ++ (unpack f).cn.extractLsb' 12 4)) ∧
  ∀ f g : Frame, f.extractLsb' 1 24 = g.extractLsb' 1 24 → p0Calc f = p0Calc g ∧ p1Calc f = p1Calc g

/-- R163, R167: DEC answers at its ports, for every `din` and `dcount`, TOO_SHORT below 4 bytes, else
PARITY_MISMATCH when a recomputed parity differs from its stored bit, else the credential; nothing else changes. -/
def Obligations.DecAnswersAtItsPorts : Prop :=
  ∀ (din : BitVec 32) (dcount : BitVec 3) (s : State),
    exec (.dec din dcount) s = .next { s with responses := s.responses ++ [.decoded (
      if dcount.toNat < 4 then .err .tooShort
      else if xorAll (din.extractLsb' 1 12) ≠ din.extractLsb' 25 1 ∨
          ~~~xorAll (din.extractLsb' 13 12) ≠ din.extractLsb' 0 1 then .err .parityMismatch
      else .ok ⟨din.extractLsb' 17 8, din.extractLsb' 1 16⟩)] } ∧
    (encode (.dec din dcount)).op = 0b01#2

/-- R160: DEC over a byte sequence of any length, and in the port form that shows the sequence. -/
def Obligations.DecOfAByteSequence : Prop :=
  (∀ (bs : List Byte) (din : BitVec 32) (dcount : BitVec 3) (s : State), Shows bs din dcount →
    exec (.dec din dcount) s = .next (s.respond (.decoded (decodeBytes bs))) ∧
    (encode (.dec din dcount)).op = 0b01#2) ∧
  (∀ bs : List Byte, bs.length < 4 → decodeBytes bs = .err .tooShort) ∧
  ∀ (b0 b1 b2 b3 : Byte) (rest : List Byte),
    let f : Frame := b3 ++ b2 ++ b1 ++ b0
    decodeBytes (b0 :: b1 :: b2 :: b3 :: rest) =
      if xorAll (f.extractLsb' 1 12) ≠ f.extractLsb' 25 1 ∨ ~~~xorAll (f.extractLsb' 13 12) ≠ f.extractLsb' 0 1 then
        .err .parityMismatch
      else .ok ⟨f.extractLsb' 17 8, f.extractLsb' 1 16⟩

/-- R65: where the host shows a byte sequence on DEC's ports as R65 says, DEC answers the result of that sequence; the
bytes of `din` that are not present reach no output. -/
def Obligations.DecPortFormIsTheSequenceForm : Prop :=
  (∀ (bs : List Byte) (din : BitVec 32) (dcount : BitVec 3) (s : State), Shows bs din dcount →
    exec (.dec din dcount) s = .next (s.respond (.decoded (decodeBytes bs)))) ∧
  ∀ (fill : BitVec 32) (bs : List Byte), Shows bs (dinOf fill bs) (countOf bs)

/-- R60, R65: a request as the source states it, driven on the ports with anything in the bytes that are not present, is
answered by the next step as that request. -/
def Obligations.DrivenRequestIsServed : Prop :=
  ∀ (fill : BitVec 32) (r : Request) (s : State),
    step (s.presentFirst (r.drive fill)) =
      match r with
      | .enc fc cn => .next (s.respond (.frame (encodeFrame fc cn)))
      | .dec bs => .next (s.respond (.decoded (decodeBytes bs)))
      | .par v start length kind => exec (.par v start length kind) s

/-- What a host samples after T_SETTLE, whichever operation it selects: ENC's frame on `frame_out`; DEC's status, and its
credential when there is one, on `status`, `fc_out` and `cn_out`; the bit of an admitted PAR on `pbit` (R211, R235).
T_SETTLE is open, and the model evaluates atomically (assumption 5). -/
def Obligations.SettledSampleOfEachOperation : Prop :=
  ∀ h : Presentation, Config.tSettle ≤ h.heldFor →
    (h.ports.op = 0b00#2 → ∃ o : PortOut, h.sample = some o ∧
      o.frameOut = some (encodeFrame h.ports.fcIn h.ports.cnIn)) ∧
    (h.ports.op = 0b01#2 → ∃ o : PortOut, h.sample = some o ∧
      match decodeBytes (portBytes h.ports.din h.ports.dcount) with
      | .ok c => o.status = some 0b00#2 ∧ o.fcOut = some c.facilityCode ∧ o.cnOut = some c.cardNumber
      | .err .tooShort => o.status = some 0b01#2 ∧ o.fcOut = none ∧ o.cnOut = none
      | .err .parityMismatch => o.status = some 0b10#2 ∧ o.fcOut = none ∧ o.cnOut = none) ∧
    (h.ports.op = 0b10#2 → h.ports.pstart.toNat + h.ports.plen.toNat ≤ 32 → ∃ o : PortOut, h.sample = some o ∧
      o.pbit = some (xorAll ((h.ports.pval >>> h.ports.pstart.toNat).setWidth h.ports.plen.toNat) ^^^ h.ports.pkind))

/-- R161: TOO_SHORT exactly when fewer than 4 bytes are supplied; in the port form exactly when `dcount` is at most 3,
and then `din` is not read. -/
def Obligations.TooShortExactlyBelowFourBytes : Prop :=
  (∀ bs : List Byte, decodeBytes bs = .err .tooShort ↔ bs.length < 4) ∧
  ∀ (din : BitVec 32) (dcount : BitVec 3) (s : State),
    (exec (.dec din dcount) s = .next (s.respond (.decoded (.err .tooShort))) ↔ dcount.toNat ≤ 3) ∧
    (dcount.toNat ≤ 3 → ∀ din' : BitVec 32, exec (.dec din' dcount) s = exec (.dec din dcount) s)

/-- R162: bytes beyond the 4th do not affect the result. -/
def Obligations.BytesBeyondTheFourthAreIgnored : Prop :=
  ∀ bs t : List Byte, 4 ≤ bs.length → decodeBytes (bs ++ t) = decodeBytes bs

/-- R166: DEC does not read frame bits 31 to 26: a frame whose bits 25 to 0 are an encoder output decodes to its
credential whatever its bits 31 to 26 hold. -/
def Obligations.UnusedBitsAreIgnoredByDec : Prop :=
  (∀ (f g : BitVec 32) (dcount : BitVec 3) (s : State),
    f.extractLsb' 0 26 = g.extractLsb' 0 26 → exec (.dec f dcount) s = exec (.dec g dcount) s) ∧
  ∀ (fc : FacilityCode) (cn : CardNumber) (f : BitVec 32) (dcount : BitVec 3) (s : State),
    f.extractLsb' 0 26 = (encodeFrame fc cn).extractLsb' 0 26 → 4 ≤ dcount.toNat →
      exec (.dec f dcount) s = .next (s.respond (.decoded (.ok ⟨fc, cn⟩)))

/-- R68: the status codes, of which 0b11 is never driven; `fc_out` and `cn_out` hold the credential when the status is
OK and no value otherwise. -/
def Obligations.StatusCodesOfADecodeResult : Prop :=
  (∀ c : Credential,
    (portsOut (.decoded (.ok c))).status = some 0b00#2 ∧
    (portsOut (.decoded (.ok c))).fcOut = some c.facilityCode ∧
    (portsOut (.decoded (.ok c))).cnOut = some c.cardNumber) ∧
  (portsOut (.decoded (.err .tooShort))).status = some 0b01#2 ∧
  (portsOut (.decoded (.err .parityMismatch))).status = some 0b10#2 ∧
  (∀ e : DecodeError, (portsOut (.decoded (.err e))).fcOut = none ∧ (portsOut (.decoded (.err e))).cnOut = none) ∧
  ∀ r : Response, (portsOut r).status ≠ some 0b11#2

/-- R63, R66: the frame of an ENC response stands on `frame_out`, its wire byte k at bits 8k+7 down to 8k, and the bit of
a PAR response on `pbit`. -/
def Obligations.FrameAndParityBitReachTheirPorts : Prop :=
  (∀ f : Frame, (portsOut (.frame f)).frameOut = some f ∧
    ∀ k, k < 4 → (wireBytes f)[k]? = some (f.extractLsb' (8 * k) 8)) ∧
  ∀ b : Bit, (portsOut (.parity b)).pbit = some b

/-- The output ports of the other operations hold no value: the spec is silent on them, and this is the model's choice
(assumption 12). -/
def Obligations.PortsOfOtherOperationsHoldNoValue : Prop :=
  (∀ f : Frame, (portsOut (.frame f)).status = none ∧ (portsOut (.frame f)).fcOut = none ∧
    (portsOut (.frame f)).cnOut = none ∧ (portsOut (.frame f)).pbit = none) ∧
  (∀ r : DecodeResult, (portsOut (.decoded r)).frameOut = none ∧ (portsOut (.decoded r)).pbit = none) ∧
  ∀ b : Bit, (portsOut (.parity b)).frameOut = none ∧ (portsOut (.parity b)).status = none ∧
    (portsOut (.parity b)).fcOut = none ∧ (portsOut (.parity b)).cnOut = none

/-- R169: DEC accepts a byte sequence of 4 or more exactly when bits 0 to 25 of its frame are those of an encoder
output, and of the 2^26 values of bits 25 to 0 exactly 2^24 are accepted. -/
def Obligations.AcceptedFramesAreEncoderOutputs : Prop :=
  (∀ (b0 b1 b2 b3 : Byte) (rest : List Byte) (c : Credential),
    decodeBytes (b0 :: b1 :: b2 :: b3 :: rest) = .ok c ↔
      (rebuild b0 b1 b2 b3).extractLsb' 0 26 = (encodeFrame c.facilityCode c.cardNumber).extractLsb' 0 26) ∧
  Set.ncard { v : BitVec 26 | ∃ c, decodeFrame (v.setWidth 32) = .ok c } = 2 ^ 24

/-- R146: for every credential, DEC of the bytes of ENC gives it back; and so does serving ENC and then DEC of the frame
it answered. -/
def Obligations.DecInvertsEnc : Prop :=
  ∀ (fc : FacilityCode) (cn : CardNumber),
    decodeBytes (wireBytes (encodeFrame fc cn)) = .ok ⟨fc, cn⟩ ∧
    ∀ s : State, ∃ f : Frame,
      exec (.enc fc cn) s = .next (s.respond (.frame f)) ∧
      exec (.dec f 4#3) (s.respond (.frame f)) =
        .next ((s.respond (.frame f)).respond (.decoded (.ok ⟨fc, cn⟩)))

/-- R170: what flips of the bits of a valid frame DEC detects, and what it misses. -/
def Obligations.FlipDetection : Prop :=
  (∀ (f : Frame) (c : Credential), decodeFrame f = .ok c →
    (∀ i, 1 ≤ i → i ≤ 24 → (p0Calc (flipBit f i) ≠ p0Calc f ↔ ¬ p1Calc (flipBit f i) ≠ p1Calc f)) ∧
    (∀ i, i ≤ 25 → decodeFrame (flipBit f i) = .err .parityMismatch) ∧
    (∀ i, 26 ≤ i → i ≤ 31 → decodeFrame (flipBit f i) = .ok c) ∧
    (∀ i j, i ≠ j → (1 ≤ i ∧ i ≤ 12 ∧ 1 ≤ j ∧ j ≤ 12 ∨ 13 ≤ i ∧ i ≤ 24 ∧ 13 ≤ j ∧ j ≤ 24) →
      ∃ c', c' ≠ c ∧ decodeFrame (flipBit (flipBit f i) j) = .ok c') ∧
    (∀ i, 1 ≤ i → i ≤ 12 → ∃ c', c' ≠ c ∧ decodeFrame (flipBit (flipBit f i) 25) = .ok c') ∧
    ∀ i, 13 ≤ i → i ≤ 24 → ∃ c', c' ≠ c ∧ decodeFrame (flipBit (flipBit f i) 0) = .ok c') ∧
  decodeFrame (flipBit (flipBit (encodeFrame 123#8 45678#16) 1) 2) = .ok ⟨123#8, 45677#16⟩

/-- Frame of ENC, DEC and PAR: a next state of exec keeps the requests still to be served, the refusal mark and every
response already given, and adds one response, of the operation's own kind (R49, R60). -/
def Obligations.ExecAddsOneResponse : Prop :=
  ∀ (i : Instr) (s t : State), exec i s = .next t →
    t.requests = s.requests ∧ t.mark = s.mark ∧
    ∃ r : Response, t.responses = s.responses ++ [r] ∧
      match i with
      | .enc _ _ => ∃ f, r = .frame f
      | .dec _ _ => ∃ d, r = .decoded d
      | .par _ _ _ _ => ∃ b, r = .parity b

/-- R30, R49, R51: what a request is answered depends on that request alone, not on the state it is served in. -/
def Obligations.AnswerDependsOnTheRequestAlone : Prop :=
  ∀ i : Instr, (∃ r : Response, ∀ s : State, exec i s = .next (s.respond r)) ∨
    ∃ why : Refusal, ∀ s : State, exec i s = .refused why

/-- R202, R203: the outcome of a step that has a request to serve: refused for a reserved `op` or for a parity range
past bit 31, and answered with one response in every other case. -/
def Obligations.EveryAdmittedRequestIsAnswered : Prop :=
  ∀ (s : State) (p : PortIn) (rest : List PortIn), s.requests = p :: rest →
    if p.op = 0b11#2 then step s = .refused .reservedOp
    else if p.op = 0b10#2 ∧ 32 < p.pstart.toNat + p.plen.toNat then step s = .refused .parityRange
    else ∃ r : Response, step s = .next { s with requests := rest, responses := s.responses ++ [r] }

/-- The invariant of a run holds at its start. -/
def Obligations.ResetHasTheRunInvariant : Prop := RunInv State.reset

/-- The invariant of a run, that every frame in the observation is one an encoder can have made and that the mark is one
of R203's, is kept by every step, and by going on past a refused request. -/
def Obligations.EveryStepKeepsTheRunInvariant : Prop :=
  (∀ s t : State, RunInv s → step s = .next t → RunInv t) ∧ ∀ s : State, RunInv s → RunInv (serveNext s)

/-- Whatever the state, serving all requests gives each request exactly what its run alone gives, in order (R210, R212);
it ends with none waiting, and the mark is the one there was, or else the first refusal. That the run goes on past a
refusal, and that the mark keeps the first reason, are the model's choice (assumption 3). -/
def Obligations.RunGivesEachRequestItsOwnAnswer : Prop :=
  ∀ s : State,
    (serveAll s).requests = [] ∧
    (serveAll s).responses = s.responses ++ s.requests.flatMap alone ∧
    (serveAll s).mark =
      match s.mark with
      | some r => some r
      | none => firstRefusal s.requests

/-- R212: the observation of a run is one response per request, in order, each the one the request gets alone; a run with
a refused request has no observation. -/
def Obligations.ObservationOfARun : Prop :=
  ∀ ps : List PortIn,
    ((∀ p ∈ ps, admitted p = true) → ∃ rs : List Response,
      (runOf ps).observation = some rs ∧ List.Forall₂ (fun p r => alone p = [r]) ps rs) ∧
    ((∃ p ∈ ps, admitted p = false) → (runOf ps).observation = none)

/-- Copies of the block that share a sequence of requests give together what one block gives, and the order of the
requests changes nothing but the order of the responses (R51, R210). For sequences that hold a refused request this rests
on the run going on past it, which is the model's choice (assumption 3). -/
def Obligations.RequestsAreIndependent : Prop :=
  (∀ ps qs : List PortIn, (runOf (ps ++ qs)).responses = (runOf ps).responses ++ (runOf qs).responses) ∧
  ∀ ps qs : List PortIn, ps.Perm qs →
    (runOf ps).responses.Perm (runOf qs).responses ∧ ((runOf ps).mark = none ↔ (runOf qs).mark = none)

/-- R203: once a request of a run is refused, the run keeps its mark however many more requests it serves, and it has no
observation. That a run goes on past the refusal is the model's reading (assumption 3). -/
def Obligations.RefusalMarkIsKept : Prop :=
  ∀ (s : State) (why : Refusal), (step s = .refused why ∨ s.mark = some why) → ∀ n, 1 ≤ n →
    (serveTimes n s).mark.isSome = true ∧ (serveTimes n s).observation = none

/-- Steps alone, on the host's interface, serve a sequence of admitted requests, and then stand still (assumption 4 for
the steps past the last request). -/
def Obligations.StepsServeAdmittedRequests : Prop :=
  ∀ s : State, (∀ p ∈ s.requests, admitted p = true) → ∀ k, s.requests.length ≤ k →
    Host.Core.run core k s = .next (serveAll s)

/-- R233, R235: a host that keeps its duties samples, all from one evaluation, the output ports of the response that a
step gives its request in any state (T_SETTLE is open, assumption 5). -/
def Obligations.SettledSampleShowsTheResponse : Prop :=
  ∀ h : Presentation, h.KeepsDuties → ∃ r : Response,
    h.sample = some (portsOut r) ∧
    ∀ s : State, step (s.presentFirst h.ports) = .next (s.respond r)

/-- R26: a number written for an operand is that operand's value when it fits the port, and no operand when it does
not: it is never truncated (the reading of the text is assumption 8). -/
def Obligations.WrittenOperandIsNeverTruncated : Prop :=
  ∀ (w : Nat) (cs : List Char) (n : Nat), number cs = some n →
    (n < 2 ^ w → ∃ v : BitVec w, operand w cs = some v ∧ v.toNat = n) ∧ (2 ^ w ≤ n → operand w cs = none)
end

