-- ==== Sys2Proof/Laws/Bits.lean ====
section
/-! SUPPORT. The bits of the mux, the demux and the wire bytes, and how XOR_REDUCE splits. -/

namespace Sys2Proof.Machine

@[simp] theorem xorReduce_zero (v : BitVec 32) (start : Nat) : xorReduce v start 0 = false := rfl

theorem xorReduce_succ (v : BitVec 32) (start n : Nat) :
    xorReduce v start (n + 1) = (xorReduce v start n ^^ v.getLsbD (start + n)) := rfl

/-- XOR_REDUCE reads no bit outside its range. -/
theorem xorReduce_congr {v w : BitVec 32} {start n : Nat}
    (h : ∀ k, k < n → v.getLsbD (start + k) = w.getLsbD (start + k)) : xorReduce v start n = xorReduce w start n := by
  induction n with
  | zero => rfl
  | succ n ih => rw [xorReduce_succ, xorReduce_succ, ih fun k hk => h k (by omega), h n (by omega)]

/-- XOR_REDUCE of an exclusive OR. -/
theorem xorReduce_xor (v w : BitVec 32) (start n : Nat) :
    xorReduce (v ^^^ w) start n = (xorReduce v start n ^^ xorReduce w start n) := by
  induction n with
  | zero => rfl
  | succ n ih =>
    simp only [xorReduce_succ, ih, BitVec.getLsbD_xor]
    cases xorReduce v start n <;> cases xorReduce w start n <;> simp

/-- The bits of PACK: the card number at 1 to 16, the facility code at 17 to 24, zeros elsewhere (R120). -/
theorem pack_getLsbD (fc : FacilityCode) (cn : CardNumber) (i : Nat) :
    (pack fc cn).getLsbD i =
      if i = 0 then false else if i < 17 then cn.getLsbD (i - 1) else fc.getLsbD (i - 17) := by
  unfold pack
  simp only [Config.fcPos, Config.cnPos, BitVec.getLsbD_or, BitVec.getLsbD_shiftLeft, BitVec.getLsbD_setWidth]
  rcases Nat.lt_or_ge i 17 with h | h
  · rcases Nat.eq_zero_or_pos i with rfl | h0
    · simp
    · have h1 : ¬ i < 1 := by omega
      have h2 : ¬ i = 0 := by omega
      have h3 : i < 32 := by omega
      have h4 : i - 1 < 32 := by omega
      simp [h, h1, h2, h3, h4]
  · have h0 : ¬ i = 0 := by omega
    have h1 : ¬ i < 17 := by omega
    have h2 : cn.getLsbD (i - 1) = false := BitVec.getLsbD_of_ge _ _ (by omega)
    simp only [h0, h1, h2, if_false, Bool.and_false, Bool.or_false, decide_false, Bool.not_false, Bool.and_true]
    rcases Nat.lt_or_ge i 32 with h3 | h3
    · have h4 : i - 17 < 32 := by omega
      simp [h3, h4]
    · rw [BitVec.getLsbD_of_ge fc (i - 17) (by omega)]; simp

/-- PLACE_P0 writes bit 25 and no other (R121). -/
theorem placeP0_getLsbD (f : Frame) (p : Bit) (i : Nat) :
    (placeP0 f p).getLsbD i = (f.getLsbD i || (decide (i = 25) && p.getLsbD 0)) := by
  unfold placeP0
  simp only [Config.p0Pos, BitVec.getLsbD_or, BitVec.getLsbD_shiftLeft, BitVec.getLsbD_setWidth]
  rcases Nat.lt_trichotomy i 25 with h | rfl | h
  · simp [h, Nat.ne_of_lt h]
  · simp
  · rw [BitVec.getLsbD_of_ge p (i - 25) (by omega)]; simp [Nat.ne_of_gt h]

/-- PLACE_P1 writes bit 0 and no other (R122). -/
theorem placeP1_getLsbD (f : Frame) (p : Bit) (i : Nat) :
    (placeP1 f p).getLsbD i = (f.getLsbD i || (decide (i = 0) && p.getLsbD 0)) := by
  unfold placeP1
  simp only [Config.p1Pos, BitVec.getLsbD_or, BitVec.getLsbD_shiftLeft, BitVec.getLsbD_setWidth]
  rcases Nat.eq_zero_or_pos i with rfl | h
  · simp
  · rw [BitVec.getLsbD_of_ge p (i - 0) (by omega)]; simp [Nat.ne_of_gt h]

/-- DEC rejects for parity exactly where a recomputed parity differs from its stored bit (R163). -/
theorem decodeFrame_eq_ok {f : Frame} {c : Credential} :
    decodeFrame f = .ok c ↔
      p0Calc f = (unpack f).p0 ∧ p1Calc f = (unpack f).p1 ∧ c = ⟨(unpack f).fc, (unpack f).cn⟩ := by
  unfold decodeFrame
  by_cases h0 : p0Calc f = (unpack f).p0 <;> by_cases h1 : p1Calc f = (unpack f).p1 <;> simp [h0, h1, eq_comm]

/-- The one other result on a frame is PARITY_MISMATCH. -/
theorem decodeFrame_cases (f : Frame) :
    decodeFrame f = .ok ⟨(unpack f).fc, (unpack f).cn⟩ ∨ decodeFrame f = .err .parityMismatch := by
  unfold decodeFrame
  simp only []
  split <;> simp

/-- Both parity instances read bits 1 to 24 alone (R104). -/
theorem parityCalc_congr {f g : Frame} (h : ∀ i, 1 ≤ i → i ≤ 24 → f.getLsbD i = g.getLsbD i) :
    p0Calc f = p0Calc g ∧ p1Calc f = p1Calc g := by
  have h0 : xorReduce f 1 12 = xorReduce g 1 12 := xorReduce_congr fun k hk => h _ (by omega) (by omega)
  have h1 : xorReduce f 13 12 = xorReduce g 13 12 := xorReduce_congr fun k hk => h _ (by omega) (by omega)
  simp [p0Calc, p1Calc, parity, h0, h1]

end Sys2Proof.Machine
end

