-- ==== Sys2Proof/Laws/Decode.lean ====
section
/-! SUPPORT. What reading a request off the ports gives, by its operation select, and that the codes of the parity kind
are inverse. -/

namespace Sys2Proof

@[simp] theorem kindOfBit_bitOfKind (k : ParityKind) : kindOfBit (bitOfKind k) = k := by cases k <;> decide

@[simp] theorem bitOfKind_kindOfBit : ∀ b : Bit, bitOfKind (kindOfBit b) = b := by decide

/-- A request read off the ports is of the operation that `op` selects, and a rejection is of the reserved code. -/
theorem decode_cases (p : PortIn) :
    (p.op = 0b00#2 ∧ decode p = .ok (.enc p.fcIn p.cnIn)) ∨
    (p.op = 0b01#2 ∧ decode p = .ok (.dec p.din p.dcount)) ∨
    (p.op = 0b10#2 ∧ decode p = .ok (.par p.pval p.pstart p.plen (kindOfBit p.pkind))) ∨
    (p.op = 0b11#2 ∧ decode p = .error .reservedOp) := by
  have hop : ∀ o : BitVec 2, o = 0b00#2 ∨ o = 0b01#2 ∨ o = 0b10#2 ∨ o = 0b11#2 := by decide
  rcases hop p.op with h | h | h | h
  · exact .inl ⟨h, by simp [decode, h]⟩
  · exact .inr (.inl ⟨h, by simp [decode, h]⟩)
  · exact .inr (.inr (.inl ⟨h, by simp [decode, h]⟩))
  · exact .inr (.inr (.inr ⟨h, by simp [decode, h]⟩))

/-- A table word decodes through the port set it lays out. -/
theorem decodeTableWord_eq_some {nbits w : Nat} {i : Instr} :
    decodeTableWord nbits w = some i ↔ decode (PortIn.ofTableWord nbits w) = .ok i := by
  unfold decodeTableWord
  cases decode (PortIn.ofTableWord nbits w) <;> simp

end Sys2Proof
end

