-- ==== Sys2Proof/Laws/State.lean ====
section
/-! SUPPORT. The fields of a state after each operation of Machine/Ops.lean. -/

namespace Sys2Proof.Machine

@[simp] theorem State.respond_requests (s : State) (r : Response) : (s.respond r).requests = s.requests := rfl
@[simp] theorem State.respond_responses (s : State) (r : Response) :
    (s.respond r).responses = s.responses ++ [r] := rfl
@[simp] theorem State.respond_mark (s : State) (r : Response) : (s.respond r).mark = s.mark := rfl

@[simp] theorem State.presentFirst_requests (s : State) (p : PortIn) :
    (s.presentFirst p).requests = p :: s.requests := rfl
@[simp] theorem State.presentFirst_responses (s : State) (p : PortIn) :
    (s.presentFirst p).responses = s.responses := rfl
@[simp] theorem State.presentFirst_mark (s : State) (p : PortIn) : (s.presentFirst p).mark = s.mark := rfl

@[simp] theorem State.present_requests (s : State) (ps : List PortIn) :
    (s.present ps).requests = s.requests ++ ps := rfl
@[simp] theorem State.present_responses (s : State) (ps : List PortIn) :
    (s.present ps).responses = s.responses := rfl
@[simp] theorem State.present_mark (s : State) (ps : List PortIn) : (s.present ps).mark = s.mark := rfl

@[simp] theorem State.passRefused_requests (s : State) (r : Refusal) :
    (s.passRefused r).requests = s.requests.tail := rfl
@[simp] theorem State.passRefused_responses (s : State) (r : Refusal) :
    (s.passRefused r).responses = s.responses := rfl
@[simp] theorem State.passRefused_mark (s : State) (r : Refusal) :
    (s.passRefused r).mark = some (s.mark.getD r) := rfl

@[simp] theorem State.reset_requests : State.reset.requests = [] := rfl
@[simp] theorem State.reset_responses : State.reset.responses = [] := rfl
@[simp] theorem State.reset_mark : State.reset.mark = none := rfl

end Sys2Proof.Machine
end

