-- ==== Sys2Proof/Laws/Ops.lean ====
section
/-! SUPPORT. What each shared operation over the state, and a step, can do, said once. -/

namespace Sys2Proof.Machine

/-- Taking a request gives the oldest one and the state without it, and there is one to take unless none waits. -/
theorem State.takeRequest_cases (s : State) :
    (s.requests = [] ∧ s.takeRequest = none) ∨
      ∃ p rest, s.requests = p :: rest ∧ s.takeRequest = some (p, { s with requests := rest }) := by
  unfold State.takeRequest
  cases s.requests with
  | nil => exact .inl ⟨rfl, rfl⟩
  | cons p rest => exact .inr ⟨p, rest, rfl, rfl⟩

theorem State.takeRequest_presentFirst (s : State) (p : PortIn) : (s.presentFirst p).takeRequest = some (p, s) := rfl

/-- The observation is the responses exactly while no request has been refused. -/
theorem State.observation_eq_some {s : State} {rs : List Response} :
    s.observation = some rs ↔ s.mark = none ∧ s.responses = rs := by
  unfold State.observation
  cases s.mark <;> simp

/-- A step that answers a next state either had no request to serve, or served the oldest one. -/
theorem step_cases {s t : State} (h : step s = .next t) :
    (s.requests = [] ∧ t = s) ∨
      ∃ p rest i, s.requests = p :: rest ∧ decode p = .ok i ∧ exec i { s with requests := rest } = .next t := by
  unfold step at h
  rcases s.takeRequest_cases with ⟨hs, ht⟩ | ⟨p, rest, hs, ht⟩ <;> rw [ht] at h
  · exact .inl ⟨hs, by cases h; rfl⟩
  · refine .inr ⟨p, rest, ?_⟩
    cases hd : decode p with
    | ok i => exact ⟨i, hs, rfl, by simpa only [hd] using h⟩
    | error e => simp only [hd] at h; cases h

/-- What serving one request does: the next state of its step, or going on past its refusal. -/
theorem serveNext_cases (s : State) :
    step s = .next (serveNext s) ∨ ∃ r, step s = .refused r ∧ serveNext s = s.passRefused r := by
  unfold serveNext
  cases h : step s with
  | next t => exact .inl rfl
  | fault f => exact nomatch f
  | refused r => exact .inr ⟨r, rfl, rfl⟩

/-- PAR answers a next state only inside its precondition, with the parity of its range. -/
theorem execPar_next {v : BitVec 32} {start : BitVec 5} {length : BitVec 6} {kind : ParityKind} {s t : State}
    (h : execPar v start length kind s = .next t) :
    start.toNat + length.toNat ≤ 32 ∧ t = s.respond (.parity (parity v start.toNat length.toNat kind)) := by
  unfold execPar at h
  split at h
  · exact ⟨‹_›, by cases h; rfl⟩
  · cases h

end Sys2Proof.Machine
end

