-- ==== Sys2Proof/Laws/Codec.lean ====
section
/-! SUPPORT. The lemmas the claims about the codec rest on: XOR_REDUCE as an XOR of all bits of a slice, the bits of
ENC's frame, of a rebuilt frame and of a frame with a flipped bit, and what serving one request does. -/

namespace Sys2Proof.Machine

open Sys2Proof.Safety

theorem xorReduce_eq_foldl (v : BitVec 32) (start n : Nat) :
    xorReduce v start n = (List.range n).foldl (fun x i => x ^^ v.getLsbD (start + i)) false := by
  induction n with
  | zero => rfl
  | succ n ih => rw [xorReduce_succ, List.range_succ, List.foldl_append, ih]; rfl

/-- A range reduced is the XOR of all bits of any vector that holds the range's bits. -/
theorem xorReduce_eq_xorAll (v : BitVec 32) (start : Nat) {w : Nat} (u : BitVec w)
    (h : ∀ i, i < w → u.getLsbD i = v.getLsbD (start + i)) : BitVec.ofBool (xorReduce v start w) = xorAll u := by
  have hfold : ∀ n, n ≤ w →
      (List.range n).foldl (fun x i => x ^^ v.getLsbD (start + i)) false =
        (List.range n).foldl (fun x i => x ^^ u.getLsbD i) false := by
    intro n
    induction n with
    | zero => intro _; rfl
    | succ n ih =>
      intro hn
      simp only [List.range_succ, List.foldl_append, List.foldl_cons, List.foldl_nil]
      rw [ih (by omega), h n (by omega)]
  rw [xorReduce_eq_foldl, hfold w (Nat.le_refl w)]
  rfl

/-- PAR's bit is the reduced range, XOR the code of the kind (R67). -/
theorem parity_eq (v : BitVec 32) (start n : Nat) (kind : ParityKind) :
    parity v start n kind = BitVec.ofBool (xorReduce v start n) ^^^ bitOfKind kind := by
  cases kind <;> simp only [parity, bitOfKind] <;> cases xorReduce v start n <;> decide

/-- The count of 1-bits of a range is odd exactly when XOR_REDUCE gives 1 (R105). -/
theorem ones_mod_two (v : BitVec 32) (start n : Nat) : ones v start n % 2 = (xorReduce v start n).toNat := by
  unfold ones
  induction n with
  | zero => rfl
  | succ n ih =>
    rw [List.range'_concat, List.countP_append, xorReduce_succ]
    simp only [Nat.one_mul, List.countP_singleton]
    cases h1 : xorReduce v start n <;> cases h2 : v.getLsbD (start + n) <;> simp [h1] at ih ⊢ <;> omega

/-- The bits of ENC's frame: P1, the card number, the facility code, P0 and zeros (R70). -/
theorem encodeFrame_getLsbD (fc : FacilityCode) (cn : CardNumber) (i : Nat) :
    (encodeFrame fc cn).getLsbD i =
      if i = 0 then (p1Calc (pack fc cn)).getLsbD 0
      else if i < 17 then cn.getLsbD (i - 1)
      else if i < 25 then fc.getLsbD (i - 17)
      else if i = 25 then (p0Calc (pack fc cn)).getLsbD 0
      else false := by
  have hp1 : p1Calc (placeP0 (pack fc cn) (p0Calc (pack fc cn))) = p1Calc (pack fc cn) := by
    refine (parityCalc_congr fun i h1 h2 => ?_).2
    rw [placeP0_getLsbD]
    simp [show i ≠ 25 by omega]
  simp only [encodeFrame, hp1, placeP1_getLsbD, placeP0_getLsbD, pack_getLsbD]
  rcases Nat.eq_zero_or_pos i with rfl | h0
  · simp
  · simp only [show i ≠ 0 by omega, if_false, decide_false, Bool.false_and, Bool.or_false]
    split
    · simp [show i ≠ 25 by omega]
    · split
      · simp [show i ≠ 25 by omega]
      · have hfc : fc.getLsbD (i - 17) = false := BitVec.getLsbD_of_ge _ _ (by omega)
        simp only [hfc]
        split <;> simp [*]

/-- The bits of a frame rebuilt from 4 bytes (R42). -/
theorem rebuild_getLsbD (b0 b1 b2 b3 : Byte) (i : Nat) :
    (rebuild b0 b1 b2 b3).getLsbD i =
      if i < 8 then b0.getLsbD i
      else if i < 16 then b1.getLsbD (i - 8)
      else if i < 24 then b2.getLsbD (i - 16)
      else b3.getLsbD (i - 24) := by
  simp only [rebuild, BitVec.getLsbD_or, BitVec.getLsbD_shiftLeft, BitVec.getLsbD_setWidth]
  have z : ∀ (b : Byte) j, 8 ≤ j → b.getLsbD j = false := fun b j h => BitVec.getLsbD_of_ge _ _ h
  by_cases h1 : i < 8
  · simp [h1, show i < 32 by omega, show i < 16 by omega, show i < 24 by omega]
  · by_cases h2 : i < 16
    · simp [h1, h2, show i < 32 by omega, show i < 24 by omega, z b0 i (by omega), show i - 8 < 32 by omega]
    · by_cases h3 : i < 24
      · simp [h1, h2, h3, show i < 32 by omega, z b0 i (by omega), z b1 (i - 8) (by omega),
          show i - 16 < 32 by omega]
      · by_cases h4 : i < 32
        · simp [h1, h2, h3, h4, z b0 i (by omega), z b1 (i - 8) (by omega), z b2 (i - 16) (by omega),
            show i - 24 < 32 by omega]
        · simp [h1, h2, h3, h4, z b3 (i - 24) (by omega)]

/-- The bits of a frame with one flipped. -/
theorem flipBit_getLsbD (f : Frame) (i j : Nat) (hi : i < 32) :
    (flipBit f i).getLsbD j = (f.getLsbD j ^^ decide (i = j)) := by
  unfold flipBit
  simp only [BitVec.getLsbD_xor, BitVec.getLsbD_shiftLeft, BitVec.getLsbD_one]
  by_cases h : i = j
  · subst h; simp [hi]
  · rw [decide_eq_false h]
    rcases Nat.lt_or_ge j i with h2 | h2
    · simp [h2]
    · simp [show ¬ j - i = 0 by omega]

/-- Flipping a bit inverts XOR_REDUCE exactly when the range holds it (R170). -/
theorem xorReduce_flipBit (f : Frame) (i start n : Nat) (hi : i < 32) :
    xorReduce (flipBit f i) start n = (xorReduce f start n ^^ decide (start ≤ i ∧ i < start + n)) := by
  induction n with
  | zero => simp [xorReduce]
  | succ n ih =>
    rw [xorReduce_succ, xorReduce_succ, ih, flipBit_getLsbD _ _ _ hi]
    have e : decide (start ≤ i ∧ i < start + (n + 1)) =
        (decide (start ≤ i ∧ i < start + n) ^^ decide (i = start + n)) := by
      by_cases h : i = start + n
      · subst h; simp
      · rw [decide_eq_false h, Bool.xor_false, decide_eq_decide]; omega
    rw [e]
    generalize decide (start ≤ i ∧ i < start + n) = a
    generalize decide (i = start + n) = b
    cases xorReduce f start n <;> cases f.getLsbD (start + n) <;> cases a <;> cases b <;> rfl

/-- Serving the oldest request either gives it one response, if it is admitted, or passes it with its refusal. -/
theorem serveNext_of_cons {s : State} {p : PortIn} {rest : List PortIn} (hs : s.requests = p :: rest) :
    (admitted p = true ∧ refusalFor p = none ∧ ∃ r, step s = .next (serveNext s) ∧
      serveNext s = { s with requests := rest, responses := s.responses ++ [r] }) ∨
    (admitted p = false ∧ ∃ r, refusalFor p = some r ∧ step s = .refused r ∧ serveNext s = s.passRefused r) := by
  have hstep : step s = match decode p with
      | .ok i => exec i { s with requests := rest }
      | .error r => .refused (refusalOf r) := by
    cases hd : decode p <;> simp [step, State.takeRequest, hs, hd]
  unfold serveNext refusalFor admitted
  rw [hstep]
  cases hd : decode p with
  | error r => cases r; exact .inr ⟨rfl, _, rfl, rfl, rfl⟩
  | ok i =>
    cases i with
    | enc a b => exact .inl ⟨rfl, rfl, _, rfl, rfl⟩
    | dec a b => exact .inl ⟨rfl, rfl, _, rfl, rfl⟩
    | par a b c d =>
      by_cases h : b.toNat + c.toNat ≤ 32 <;> simp [exec, execPar, Instr.wellFormed, State.respond, h]

/-- A request that reads as `i` gets, alone, the one response that exec gives `i` at the start of a run. -/
theorem alone_of_exec {p : PortIn} {i : Instr} {r : Response} (hd : decode p = .ok i)
    (he : exec i State.reset = .next (State.reset.respond r)) : alone p = [r] := by
  have hrun : alone p = (serveNext (State.reset.present [p])).responses := rfl
  have hstep : step (State.reset.present [p]) = .next (State.reset.respond r) := by
    rw [← he]
    simp [step, State.takeRequest, State.present, State.reset, hd]
  rw [hrun, serveNext, hstep]
  rfl

end Sys2Proof.Machine
end

