-- ==== Sys2Proof/Laws/PerInstr.lean ====
section
/-! SUPPORT. The family OpSelect: what the encoding of each request drives on the operation select (30_encoding.md
R61). -/

namespace Sys2Proof.Laws.OpSelect

/-- The select of the encoded request is its operation's code of R61, and it is never the reserved one. -/
def Statement (i : Instr) : Prop :=
  (encode i).op ≠ 0b11#2 ∧
    match i with
    | .enc _ _ => (encode i).op = 0b00#2
    | .dec _ _ => (encode i).op = 0b01#2
    | .par _ _ _ _ => (encode i).op = 0b10#2

theorem enc (fc : FacilityCode) (cn : CardNumber) : Statement (.enc fc cn) := ⟨by simp [encode], rfl⟩

theorem dec (din : BitVec 32) (dcount : BitVec 3) : Statement (.dec din dcount) := ⟨by simp [encode], rfl⟩

theorem par (value : BitVec 32) (start : BitVec 5) (length : BitVec 6) (kind : ParityKind) :
    Statement (.par value start length kind) := ⟨by simp [encode], rfl⟩

end Sys2Proof.Laws.OpSelect
end

