-- ==== Sys2Proof/Tests/Slice0.lean ====
section
/-! SUPPORT. Own tests. The expected results are the vectors of 95_test_vectors.md, and each statement's hypotheses have
a witness. -/

namespace Sys2Proof.Tests

open Sys2Proof.Machine Sys2Proof.Safety

/-- A run whose next request is `i`. -/
def serving (i : Instr) : State := State.reset.presentFirst (encode i)

/-- The responses after a step that answers a next state. -/
def responsesOf : Host.Outcome State Fault Refusal → Option (List Response)
  | .next s => some s.responses
  | _ => none

/-- The refusal a step ends in. -/
def refusedWith : Host.Outcome State Fault Refusal → Option Refusal
  | .refused r => some r
  | _ => none

/-! The admission check and an ill-formed term for it (R102; §2.1 rows 5, 21, 22). -/

theorem test_par_full_range_wellFormed : (Instr.par 0xFFFFFFFF#32 0#5 32#6 .even).WellFormed := by decide
theorem test_par_past_bit31_illFormed : ¬ (Instr.par 3#32 31#5 2#6 .even).WellFormed := by decide
theorem test_par_length33_illFormed : ¬ (Instr.par 0#32 0#5 33#6 .even).WellFormed := by decide

/-! The parameters of R6 agree with each other and with the types. -/

theorem test_parameters :
    Config.fcWidth + Config.cnWidth + 2 = Config.usedBits ∧ Config.frameBytes * 8 = Config.frameWidth ∧
    Config.cnPos + Config.cnWidth = Config.fcPos ∧ Config.fcPos + Config.fcWidth = Config.p0Pos ∧
    Config.p0Start + Config.rangeLength = Config.p1Start ∧ Config.p1Start + Config.rangeLength = Config.p0Pos := by
  decide

/-! Decoding: words written out port by port, each port's bits from R61, R63, R64, R66 and R67, the highest port first
(pkind, plen, pstart, pval, dcount, din, cn_in, fc_in, op); §2.7 rows 1, 2, 8 and 9. -/

theorem test_word_enc :
    decodeWord (0b0#1 ++ 0b000000#6 ++ 0b00000#5 ++ 0#32 ++ 0b000#3 ++ 0#32 ++
      0b1011001001101110#16 ++ 0b01111011#8 ++ 0b00#2 : BitVec 105) = .ok (.enc 0x7B#8 0xB26E#16) := by rfl

theorem test_word_dec :
    decodeWord (0b0#1 ++ 0b000000#6 ++ 0b00000#5 ++ 0#32 ++ 0b100#3 ++ 0b00000000111101110110010011011100#32 ++
      0#16 ++ 0#8 ++ 0b01#2 : BitVec 105) = .ok (.dec 0x00F764DC#32 4#3) := by rfl

theorem test_word_par :
    decodeWord (0b1#1 ++ 0b000010#6 ++ 0b11111#5 ++ 0b1110#32 ++ 0b000#3 ++ 0#32 ++
      0#16 ++ 0#8 ++ 0b10#2 : BitVec 105) = .ok (.par 0xE#32 31#5 2#6 .odd) := by rfl

theorem test_word_reserved : decodeWord 0b11#105 = .error .reservedOp := by rfl

/-! One step of each operation (§2.3 rows 1 and 5; §2.4 rows 5 and 17; §2.1 row 8; §2.7 row 8). -/

theorem test_enc_example : responsesOf (step (serving (.enc 123#8 45678#16))) = some [.frame 0x00F764DC#32] := by decide
theorem test_enc_both_parities : responsesOf (step (serving (.enc 0#8 1#16))) = some [.frame 0x02000003#32] := by decide
theorem test_dec_example :
    responsesOf (step (serving (.dec 0x00F764DC#32 7#3))) = some [.decoded (.ok ⟨123#8, 45678#16⟩)] := by decide
theorem test_dec_p0_cleared :
    responsesOf (step (serving (.dec 0x004A09A4#32 4#3))) = some [.decoded (.err .parityMismatch)] := by decide
theorem test_par_top_bit_odd :
    responsesOf (step (serving (.par 0x80000000#32 31#5 1#6 .odd))) = some [.parity 0#1] := by decide
theorem test_par_refused : refusedWith (step (serving (.par 0xE#32 31#5 2#6 .even))) = some .parityRange := by decide

/-! The mux, the demux and the fixed parities (§2.2 rows 2 and 8; §2.1 rows 13 and 16). -/

theorem test_pack_all_ones : pack 255#8 65535#16 = 0x01FFFFFE#32 := by decide
theorem test_unpack_all_ones : unpack 0xFFFFFFFF#32 = ⟨255#8, 65535#16, 1#1, 1#1⟩ := by decide
theorem test_fixed_parities : p0Calc 0x01FFFFFE#32 = 0#1 ∧ p1Calc 0x00F764DC#32 = 0#1 := by decide

/-! The output ports of one response of each operation (§2.7 rows 1, 2, 4 and 7). -/

theorem test_ports_out :
    (portsOut (.frame 0x00F764DC#32)).frameOut = some 0x00F764DC#32 ∧
    (portsOut (.decoded (.ok ⟨0x7B#8, 0xB26E#16⟩))).cnOut = some 0xB26E#16 ∧
    (portsOut (.decoded (.err .tooShort))).status = some 0b01#2 ∧ (portsOut (.parity 0#1)).pbit = some 0#1 := by decide

/-! A run of program 5 carries the refusal mark and the responses of its two accepted requests. -/

theorem test_program5_mark :
    (runOf [encode (.par 0xFFFFFFFF#32 31#5 1#6 .odd), encode (.par 0xFFFFFFFF#32 31#5 2#6 .odd)]).mark =
      some .parityRange := by decide
theorem test_program5_responses :
    (runOf [encode (.par 0xFFFFFFFF#32 1#5 32#6 .even), encode (.par 0xFFFFFFFF#32 31#5 1#6 .odd)]).responses =
      [.parity 0#1] := by decide

/-! The text form (R75; the lines of 95_test_vectors.md). -/

theorem test_text_enc : parseRequest "ENC 123, 45678".toList = some (.enc 123#8 45678#16) := by decide
theorem test_text_dec : parseRequest "DEC [0xDC, 0x64] ; two bytes".toList = some (.dec [0xDC#8, 0x64#8]) := by decide
theorem test_text_par :
    parseRequest "PAR 0b1110, 0, 4, EVEN".toList = some (.par 0b1110#32 0#5 4#6 .even) := by decide
theorem test_text_never_truncates : parseRequest "ENC 256, 0".toList = none := by decide
theorem test_text_host_line : parseRequest "HOST bs1 = bytes(f1)".toList = none := by decide
theorem test_text_frame :
    showResponse (.frame 0x00F764DC#32) = "0x00F764DC [0xDC, 0x64, 0xF7, 0x00]".toList := by decide
theorem test_text_ok : showResponse (.decoded (.ok ⟨123#8, 45678#16⟩)) = "OK(123, 45678)".toList := by decide

/-- Step 2 of program 3, from its text to its response, with the byte of `din` that is not present driven high. -/
theorem test_text_to_response :
    ((parseRequest "DEC [0x01, 0x00, 0x00]".toList).map fun r =>
      responsesOf (step (State.reset.presentFirst (r.drive 0xFFFFFFFF#32)))) =
      some (some [.decoded (.err .tooShort)]) := by decide

/-! A witness for the hypotheses of each statement that has some, at boundary values. -/

/-- OpSelectsOperation: each code of the select, and both kinds. -/
theorem witness_OpSelectsOperation :
    (encode (.enc 0#8 0#16)).op = 0b00#2 ∧ (encode (.dec 0#32 0#3)).op = 0b01#2 ∧
    ((encode (.par 0#32 0#5 0#6 .even)).op = 0b10#2 ∧ (encode (.par 0#32 0#5 0#6 .even)).pkind = 0#1) ∧
    ((encode (.par 0#32 0#5 0#6 .odd)).op = 0b10#2 ∧ (encode (.par 0#32 0#5 0#6 .odd)).pkind = 1#1) ∧
    ({ PortIn.idle with op := 0b11#2 }).op = 0b11#2 := by decide

/-- EncodeOfDecodeDrivesTheSelectedPorts, with the ports of the other groups driven high. -/
theorem witness_EncodeOfDecodeDrivesTheSelectedPorts :
    decode ⟨0b01#2, 0xFF#8, 0xFFFF#16, 1#32, 7#3, 0xFFFFFFFF#32, 31#5, 63#6, 1#1⟩ = .ok (.dec 1#32 7#3) := by rfl

/-- ReservedOpIsRefused, with every operand port high. -/
theorem witness_ReservedOpIsRefused :
    (State.reset.presentFirst ⟨0b11#2, 0xFF#8, 0xFFFF#16, 1#32, 7#3, 0xFFFFFFFF#32, 31#5, 63#6, 1#1⟩).requests =
      [⟨0b11#2, 0xFF#8, 0xFFFF#16, 1#32, 7#3, 0xFFFFFFFF#32, 31#5, 63#6, 1#1⟩] := by rfl

/-- StepRunsTheDecodedRequest: both halves. -/
theorem witness_StepRunsTheDecodedRequest :
    (serving (.enc 1#8 2#16)).requests = [encode (.enc 1#8 2#16)] ∧ decode (encode (.enc 1#8 2#16)) = .ok (.enc 1#8 2#16) ∧
    decodeTableWord 8 0b10 = some (.par 0#32 0#5 0#6 .even) := ⟨rfl, rfl, rfl⟩

/-- StepWithoutRequestStandsStill. -/
theorem witness_StepWithoutRequestStandsStill : State.reset.requests = [] := rfl

/-- RunStartsWithNoResponse. -/
theorem witness_RunStartsWithNoResponse : alone (encode (.enc 0#8 0#16)) = [.frame 1#32] := by decide

/-- UnpackInvertsPackAndPlace: a frame with both parity bits and no unused bit. -/
theorem witness_UnpackInvertsPackAndPlace :
    (0x02000003#32).extractLsb' 26 6 = 0#6 ∧ pack 0#8 1#16 = pack 0#8 1#16 := by decide

/-- UnusedBitsAreUntouched and UnusedBitsAreIgnoredByDec: frames that differ in unused bits alone; and `dcount` at 4. -/
theorem witness_UnusedBits :
    (0xFDFFFFFF#32).extractLsb' 0 26 = (encodeFrame 255#8 65535#16).extractLsb' 0 26 ∧
    0xFDFFFFFF#32 ≠ encodeFrame 255#8 65535#16 ∧ 4 ≤ (4#3).toNat := by decide

/-- EncOutputProperties: equal frames. -/
theorem witness_EncOutputProperties : encodeFrame 7#8 9#16 = encodeFrame 7#8 9#16 := rfl

/-- ParOutsideItsPreconditionIsRefused, one past the boundary. -/
theorem witness_ParOutsideItsPreconditionIsRefused : 32 < (31#5).toNat + (2#6).toNat := by decide

/-- ParCompletesTheCount, at the boundary. -/
theorem witness_ParCompletesTheCount : (31#5).toNat + (1#6).toNat ≤ 32 := by decide

/-- AnyXorTreeGivesParsBit: a tree whose leaves stand in another order. -/
theorem witness_AnyXorTreeGivesParsBit :
    (29#5).toNat + (3#6).toNat ≤ 32 ∧
    (XorTree.gate (.gate (.bit 31) .zero) (.gate (.bit 29) (.bit 30))).leaves.Perm (List.range' (29#5).toNat (3#6).toNat) := by
  decide

/-- FixedParityInstances: frames that differ in bits 0, 25 and 26 alone. -/
theorem witness_FixedParityInstances : (0x06000001#32).extractLsb' 1 24 = (0#32).extractLsb' 1 24 := by decide

/-- DecPortFormIsTheSequenceForm and DecOfAByteSequence: one byte with garbage in the others; 5 bytes with `dcount` 4, and with 7. -/
theorem witness_DecPortFormIsTheSequenceForm :
    Shows [0x01#8] 0xABCDEF01#32 1#3 ∧ Shows [0xDC#8, 0x64#8, 0xF7#8, 0x00#8, 0xAA#8] 0x00F764DC#32 4#3 ∧
    Shows [0xDC#8, 0x64#8, 0xF7#8, 0x00#8, 0xAA#8] 0x00F764DC#32 7#3 := by
  unfold Shows
  decide

/-- DecOfAByteSequence and TooShortExactlyBelowFourBytes: 3 bytes, and `dcount` 3. -/
theorem witness_TooShort : ([0xDC#8, 0x64#8, 0xF7#8] : List Byte).length < 4 ∧ (3#3).toNat ≤ 3 := by decide

/-- BytesBeyondTheFourthAreIgnored, at 4 bytes. -/
theorem witness_BytesBeyondTheFourthAreIgnored : 4 ≤ ([0xDC#8, 0x64#8, 0xF7#8, 0x00#8] : List Byte).length := by decide

/-- FlipDetection: a valid frame, and bit positions at the edges of each clause. -/
theorem witness_FlipDetection :
    decodeFrame 0x00F764DC#32 = .ok ⟨123#8, 45678#16⟩ ∧
    decodeFrame (flipBit 0x00F764DC#32 25) = .err .parityMismatch ∧
    decodeFrame (flipBit 0x00F764DC#32 26) = .ok ⟨123#8, 45678#16⟩ ∧
    decodeFrame (flipBit (flipBit 0x00F764DC#32 13) 24) = .ok ⟨251#8, 41582#16⟩ ∧
    decodeFrame (flipBit (flipBit 0x00F764DC#32 1) 25) = .ok ⟨123#8, 45679#16⟩ ∧
    decodeFrame (flipBit (flipBit 0x00F764DC#32 17) 0) = .ok ⟨122#8, 45678#16⟩ := by decide

/-- ExecAddsOneResponse: a next state of each operation. -/
theorem witness_ExecAddsOneResponse :
    exec (.enc 0#8 0#16) State.reset = .next (State.reset.respond (.frame 1#32)) ∧
    exec (.dec 1#32 4#3) State.reset = .next (State.reset.respond (.decoded (.ok ⟨0#8, 0#16⟩))) ∧
    exec (.par 0#32 31#5 1#6 .odd) State.reset = .next (State.reset.respond (.parity 1#1)) := ⟨rfl, rfl, rfl⟩

/-- EveryAdmittedRequestIsAnswered: a request of each clause. -/
theorem witness_EveryAdmittedRequestIsAnswered :
    (State.reset.presentFirst { PortIn.idle with op := 0b11#2 }).requests = [{ PortIn.idle with op := 0b11#2 }] ∧
    (serving (.par 0#32 31#5 2#6 .even)).requests = [encode (.par 0#32 31#5 2#6 .even)] ∧
    (serving (.par 0#32 31#5 1#6 .even)).requests = [encode (.par 0#32 31#5 1#6 .even)] := ⟨rfl, rfl, rfl⟩

/-- EveryStepKeepsTheRunInvariant: a state with a frame in its observation and a request to serve. -/
theorem witness_EveryStepKeepsTheRunInvariant :
    RunInv ((serving (.enc 0#8 1#16)).respond (.frame 0x02000003#32)) ∧
    step ((serving (.enc 0#8 1#16)).respond (.frame 0x02000003#32)) =
      .next ((State.reset.respond (.frame 0x02000003#32)).respond (.frame 0x02000003#32)) := by
  refine ⟨?_, rfl⟩
  unfold RunInv
  decide

/-- ObservationOfARun: a run of each kind. -/
theorem witness_ObservationOfARun :
    (∀ p ∈ [encode (.enc 0#8 0#16), encode (.par 0#32 0#5 32#6 .even)], admitted p = true) ∧
    ∃ p ∈ [encode (.enc 0#8 0#16), encode (.par 0#32 0#5 33#6 .even)], admitted p = false := by decide

/-- RequestsAreIndependent. -/
theorem witness_RequestsAreIndependent :
    [encode (.enc 0#8 0#16), encode (.dec 0#32 0#3)].Perm [encode (.dec 0#32 0#3), encode (.enc 0#8 0#16)] := by decide

/-- RefusalMarkIsKept: a step that is refused, and a state with a mark; one request served. -/
theorem witness_RefusalMarkIsKept :
    step (State.reset.presentFirst { PortIn.idle with op := 0b11#2 }) = .refused .reservedOp ∧
    (State.reset.passRefused .parityRange).mark = some .parityRange ∧ 1 ≤ 1 := ⟨rfl, rfl, Nat.le_refl 1⟩

/-- StepsServeAdmittedRequests. -/
theorem witness_StepsServeAdmittedRequests :
    (∀ p ∈ (serving (.par 0#32 0#5 32#6 .odd)).requests, admitted p = true) ∧
    (serving (.par 0#32 0#5 32#6 .odd)).requests.length ≤ 1 := by decide

/-- SettledSampleShowsTheResponse: inputs held for exactly T_SETTLE. -/
theorem witness_SettledSampleShowsTheResponse :
    (Presentation.mk (encode (.enc 0#8 0#16)) Config.tSettle).KeepsDuties := ⟨Nat.le_refl _, by decide⟩

/-- SettledSampleOfEachOperation: inputs held for exactly T_SETTLE, each operation, PAR at its boundary. -/
theorem witness_SettledSampleOfEachOperation :
    Config.tSettle ≤ (Presentation.mk (encode (.enc 0#8 0#16)) Config.tSettle).heldFor ∧
    (encode (.enc 0#8 0#16)).op = 0b00#2 ∧ (encode (.dec 0#32 3#3)).op = 0b01#2 ∧
    (encode (.par 0#32 31#5 1#6 .odd)).op = 0b10#2 ∧
    (encode (.par 0#32 31#5 1#6 .odd)).pstart.toNat + (encode (.par 0#32 31#5 1#6 .odd)).plen.toNat ≤ 32 :=
  ⟨Nat.le_refl _, by decide⟩

/-- WrittenOperandIsNeverTruncated: the largest number that fits 8 bits, and the next. -/
theorem witness_WrittenOperandIsNeverTruncated :
    number ['2', '5', '5'] = some 255 ∧ 255 < 2 ^ 8 ∧ number ['2', '5', '6'] = some 256 ∧ 2 ^ 8 ≤ 256 := by decide

end Sys2Proof.Tests
end

section
/-! The family of 20_memory.md: serializing a frame and rebuilding it from its wire bytes. -/

namespace Sys2Proof.Machine

/-- A frame rebuilt from 4 bytes is their concatenation, the first byte lowest (R42): both put bit `i`
in the same byte. -/
theorem rebuild_eq_append (b0 b1 b2 b3 : Byte) : rebuild b0 b1 b2 b3 = b3 ++ b2 ++ b1 ++ b0 := by
  refine BitVec.eq_of_getLsbD_eq fun i _ => ?_
  have in_b1 : i - 8 < 8 ↔ i < 16 := by omega
  have in_b2 : i - (8 + 8) < 8 ↔ i < 24 := by omega
  simp only [rebuild_getLsbD, BitVec.getLsbD_append, Nat.sub_sub, in_b1, in_b2]

/-- Rebuilding the four slices of a frame gives the frame back (R42 after R41): neighbouring slices join. -/
theorem rebuild_slices (f : Frame) :
    rebuild (f.extractLsb' 0 8) (f.extractLsb' 8 8) (f.extractLsb' 16 8) (f.extractLsb' 24 8) = f := by
  calc rebuild (f.extractLsb' 0 8) (f.extractLsb' 8 8) (f.extractLsb' 16 8) (f.extractLsb' 24 8)
      = f.extractLsb' 24 8 ++ f.extractLsb' 16 8 ++ f.extractLsb' 8 8 ++ f.extractLsb' 0 8 :=
        rebuild_eq_append ..
    _ = f.extractLsb' 0 32 := by
        rw [BitVec.extractLsb'_append_extractLsb'_eq_extractLsb' (start₁ := 16) (len₁ := 8) rfl,
          BitVec.extractLsb'_append_extractLsb'_eq_extractLsb' (start₁ := 8) (len₁ := 8) rfl,
          BitVec.extractLsb'_append_extractLsb'_eq_extractLsb' (start₁ := 0) (len₁ := 8) rfl]
    _ = f := BitVec.extractLsb'_eq_self

/-- Bit `j` of the byte of a frame at position `start` is frame bit `start + j` (R41). -/
theorem slice_getLsbD (f : Frame) (start : Nat) {j : Nat} (hj : j < 8) :
    (f.extractLsb' start 8).getLsbD j = f.getLsbD (start + j) := by
  rw [BitVec.getLsbD_extractLsb', decide_eq_true hj, Bool.true_and]

/-- A byte with the bits of a frame from `start` on is the frame's slice there. -/
theorem slice_eq_of_getLsbD {f : Frame} {start : Nat} {b : Byte}
    (h : ∀ j, j < 8 → f.getLsbD (start + j) = b.getLsbD j) : f.extractLsb' start 8 = b :=
  BitVec.eq_of_getLsbD_eq fun j hj => by rw [slice_getLsbD f start hj, h j hj]

/-- Serializing a rebuilt frame gives its bytes back (R41 after R42): bits 8k to 8k+7 lie in branch k of
`rebuild_getLsbD`. -/
theorem wireBytes_rebuild (b0 b1 b2 b3 : Byte) : wireBytes (rebuild b0 b1 b2 b3) = [b0, b1, b2, b3] := by
  simp only [wireBytes, List.cons.injEq, and_true]
  refine ⟨slice_eq_of_getLsbD fun j hj => ?byte0, slice_eq_of_getLsbD fun j hj => ?byte1,
    slice_eq_of_getLsbD fun j hj => ?byte2, slice_eq_of_getLsbD fun j hj => ?byte3⟩ <;> rw [rebuild_getLsbD]
  case byte0 => rw [if_pos (by omega), Nat.zero_add]
  case byte1 => rw [if_neg (by omega), if_pos (by omega), Nat.add_sub_cancel_left]
  case byte2 => rw [if_neg (by omega), if_neg (by omega), if_pos (by omega), Nat.add_sub_cancel_left]
  case byte3 => rw [if_neg (by omega), if_neg (by omega), if_neg (by omega), Nat.add_sub_cancel_left]

end Sys2Proof.Machine

open Sys2Proof Sys2Proof.Machine

/-- Settles O18: the wire bytes are the frame's four slices, whose concatenation is the frame. -/
theorem wireBytesAndFrameAgree : Obligations.WireBytesAndFrameAgree := by
  unfold Obligations.WireBytesAndFrameAgree
  refine ⟨fun f => ⟨_, _, _, _, rfl, rebuild_slices f, fun j hj => ?_⟩,
    fun b0 b1 b2 b3 => ⟨rebuild_eq_append b0 b1 b2 b3, wireBytes_rebuild b0 b1 b2 b3⟩⟩
  have byte0 := slice_getLsbD f 0 hj
  rw [Nat.zero_add] at byte0
  exact ⟨byte0, slice_getLsbD f 8 hj, slice_getLsbD f 16 hj, slice_getLsbD f 24 hj⟩

end

section
/-! The family of 30_encoding.md: reading the operation select, the layout of ENC's frame, the byte sequence on DEC's
ports, and the status codes. -/

namespace Sys2Proof

@[simp] theorem kindOfBit_zero : kindOfBit 0#1 = .even := rfl

@[simp] theorem kindOfBit_one : kindOfBit 1#1 = .odd := rfl

namespace Machine

open Safety

/-! What exec answers for ENC and DEC, and what a step does with a request that reading rejects. -/

theorem exec_enc (fc : FacilityCode) (cn : CardNumber) (s : State) :
    exec (.enc fc cn) s = .next (s.respond (.frame (encodeFrame fc cn))) := rfl

theorem exec_dec (din : BitVec 32) (dcount : BitVec 3) (s : State) :
    exec (.dec din dcount) s = .next (s.respond (.decoded (decodeBytes (portBytes din dcount)))) := rfl

theorem step_of_decode_error {s : State} {p : PortIn} {rest : List PortIn} {r : DecodeReject}
    (hs : s.requests = p :: rest) (hd : decode p = .error r) : step s = .refused (refusalOf r) := by
  simp only [step, State.takeRequest, hs, hd]

/-! The parity bits of ENC's frame, as those of the frame itself. -/

/-- The even parity bit of bits 1 to 12 is their XOR. -/
theorem p0Calc_getLsbD_zero (f : Frame) : (p0Calc f).getLsbD 0 = xorReduce f 1 12 := by
  simp [p0Calc, parity]

/-- The odd parity bit of bits 13 to 24 is the inverse of their XOR. -/
theorem p1Calc_getLsbD_zero (f : Frame) : (p1Calc f).getLsbD 0 = !xorReduce f 13 12 := by
  simp [p1Calc, parity]

/-- Placing the parity bits leaves the fields, bits 1 to 24, as PACK put them (R140). -/
theorem encodeFrame_getLsbD_field (fc : FacilityCode) (cn : CardNumber) {i : Nat} (h1 : 1 ≤ i) (h24 : i ≤ 24) :
    (encodeFrame fc cn).getLsbD i = (pack fc cn).getLsbD i := by
  simp only [encodeFrame_getLsbD, pack_getLsbD, show i ≠ 0 by omega, show i < 25 by omega, if_true, if_false]

/-- Both parity bits computed from ENC's frame are those computed from the packed fields. -/
theorem parityCalc_encodeFrame (fc : FacilityCode) (cn : CardNumber) :
    p0Calc (encodeFrame fc cn) = p0Calc (pack fc cn) ∧ p1Calc (encodeFrame fc cn) = p1Calc (pack fc cn) :=
  parityCalc_congr fun _ h1 h24 => encodeFrame_getLsbD_field fc cn h1 h24

/-- Bit 25 of ENC's frame is the XOR of its bits 1 to 12 (R69). -/
theorem encodeFrame_getLsbD_p0Pos (fc : FacilityCode) (cn : CardNumber) :
    (encodeFrame fc cn).getLsbD 25 = xorReduce (encodeFrame fc cn) 1 12 := by
  rw [← p0Calc_getLsbD_zero, (parityCalc_encodeFrame fc cn).1, encodeFrame_getLsbD]
  simp

/-- Bit 0 of ENC's frame is the inverse of the XOR of its bits 13 to 24 (R69). -/
theorem encodeFrame_getLsbD_p1Pos (fc : FacilityCode) (cn : CardNumber) :
    (encodeFrame fc cn).getLsbD 0 = !xorReduce (encodeFrame fc cn) 13 12 := by
  rw [← p1Calc_getLsbD_zero, (parityCalc_encodeFrame fc cn).2, encodeFrame_getLsbD, if_pos rfl]

/-- The XOR of a range, counted with the range's ones, makes their number even. -/
theorem ones_add_xorReduce (v : BitVec 32) (start n : Nat) :
    (ones v start n + (xorReduce v start n).toNat) % 2 = 0 := by
  rw [Nat.add_mod, ones_mod_two]
  cases xorReduce v start n <;> rfl

/-- The inverse of the XOR of a range, counted with the range's ones, makes their number odd. -/
theorem ones_add_not_xorReduce (v : BitVec 32) (start n : Nat) :
    (ones v start n + (!xorReduce v start n).toNat) % 2 = 1 := by
  rw [Nat.add_mod, ones_mod_two]
  cases xorReduce v start n <;> rfl

/-! The byte sequence on DEC's ports. -/

/-- Byte `k` of a frame stands at bits 8k to 8k+7 (R41). -/
theorem wireBytes_getElem? (f : Frame) {k : Nat} (hk : k < 4) :
    (wireBytes f)[k]? = some (f.extractLsb' (8 * k) 8) := by
  match k, hk with
  | 0, _ | 1, _ | 2, _ | 3, _ => rfl

@[simp] theorem length_wireBytes (f : Frame) : (wireBytes f).length = 4 := rfl

/-- DEC reads no byte past the fourth (R162). -/
theorem decodeBytes_take_four (bs : List Byte) : decodeBytes (bs.take 4) = decodeBytes bs := by
  match bs with
  | [] | [_] | [_, _] | [_, _, _] | _ :: _ :: _ :: _ :: _ => rfl

/-- Ports that show a byte sequence hold its first 4 bytes, or all of them where there are fewer (R65). -/
theorem Shows.portBytes_eq {bs : List Byte} {din : BitVec 32} {dcount : BitVec 3} (h : Shows bs din dcount) :
    portBytes din dcount = bs.take 4 := by
  obtain ⟨hcount, hbytes⟩ := h
  simp only [Config.decMinBytes] at hcount hbytes
  refine List.ext_getElem? fun k => ?_
  by_cases hk : k < min bs.length 4
  · have hk_count : k < dcount.toNat := by split at hcount <;> omega
    rw [portBytes, List.getElem?_take_of_lt hk_count, List.getElem?_take_of_lt (by omega), hbytes k hk,
      wireBytes_getElem? din (by omega)]
  · have hlen : (portBytes din dcount).length ≤ k := by
      rw [portBytes, List.length_take, length_wireBytes]
      split at hcount <;> omega
    rw [List.getElem?_eq_none hlen, List.getElem?_eq_none (by rw [List.length_take]; omega)]

@[simp] theorem toNat_countOf (bs : List Byte) : (countOf bs).toNat = min bs.length 7 := by
  rw [countOf, BitVec.toNat_ofNat]
  omega

/-- Byte `k` of the driven `din` is that of the sequence, where there is one (R65). -/
theorem wireBytes_dinOf_getElem? (fill : BitVec 32) {bs : List Byte} {k : Nat} (hk : k < min bs.length 4) :
    (wireBytes (dinOf fill bs))[k]? = bs[k]? := by
  have hlen : k < bs.length := by omega
  rw [dinOf, wireBytes_rebuild, List.getElem?_eq_getElem hlen]
  match k, (show k < 4 by omega) with
  | 0, _ | 1, _ | 2, _ | 3, _ => exact congrArg some (List.getElem_eq_getD _).symm

/-- Driven as R65 says, the ports show the sequence. -/
theorem shows_dinOf_countOf (fill : BitVec 32) (bs : List Byte) : Shows bs (dinOf fill bs) (countOf bs) := by
  refine ⟨?_, fun k hk => ?_⟩
  · rw [toNat_countOf]
    simp only [Config.decMinBytes]
    split <;> omega
  · simp only [Config.decMinBytes] at hk
    rw [← wireBytes_dinOf_getElem? fill hk, wireBytes_getElem? _ (by omega)]

/-! The status codes. -/

theorem portsOut_decoded_status (r : DecodeResult) :
    (portsOut (.decoded r)).status = some (statusOf r).code := rfl

/-- No status has the reserved code (R68). -/
theorem Status.code_ne_reserved (st : Status) : st.code ≠ 0b11#2 := by
  cases st <;> decide

theorem portsOut_status_ne_reserved (r : Response) : (portsOut r).status ≠ some 0b11#2 := by
  cases r with
  | frame _ | parity _ => exact (Option.some_ne_none _).symm
  | decoded d =>
    rw [portsOut_decoded_status, ne_eq, Option.some.injEq]
    exact (statusOf d).code_ne_reserved

end Machine

end Sys2Proof

open Sys2Proof Sys2Proof.Machine

/-- Settles O11: each parity bit is the XOR of its range, inverted for odd, and so completes the count of its ones. -/
theorem encFrameLayout : Obligations.EncFrameLayout := by
  unfold Obligations.EncFrameLayout
  intro fc cn s
  refine ⟨encodeFrame fc cn, exec_enc fc cn s, fun k hk => ?cardNumber, fun k hk => ?facilityCode, fun k hk => ?unused,
    ?even, ?odd⟩
  case cardNumber => rw [encodeFrame_getLsbD, if_neg (by omega), if_pos (by omega), Nat.add_sub_cancel_left]
  case facilityCode =>
    rw [encodeFrame_getLsbD, if_neg (by omega), if_neg (by omega), if_pos (by omega), Nat.add_sub_cancel_left]
  case unused =>
    rw [encodeFrame_getLsbD, if_neg (by omega), if_neg (by omega), if_neg (by omega), if_neg (by omega)]
  case even => rw [encodeFrame_getLsbD_p0Pos, ones_add_xorReduce]
  case odd => rw [encodeFrame_getLsbD_p1Pos, ones_add_not_xorReduce]

/-- Settles O27: ports that show a sequence hold its first 4 bytes, which are all that DEC reads of it. -/
theorem decPortFormIsTheSequenceForm : Obligations.DecPortFormIsTheSequenceForm := by
  unfold Obligations.DecPortFormIsTheSequenceForm
  refine ⟨fun bs din dcount s h => ?_, shows_dinOf_countOf⟩
  rw [exec_dec, h.portBytes_eq, decodeBytes_take_four]

/-- Settles O1: in each case of the select, `decode_cases` gives the request and the other codes are excluded. -/
theorem opSelectsOperation : Obligations.OpSelectsOperation := by
  unfold Obligations.OpSelectsOperation
  intro p
  rcases decode_cases p with ⟨hop, hd⟩ | ⟨hop, hd⟩ | ⟨hop, hd⟩ | ⟨hop, hd⟩
  · simp [hop, hd]
  · simp [hop, hd]
  · -- PAR's kind is a further hypothesis, on pkind (R67).
    simp +contextual [hop, hd]
  · simp [hop, hd]

/-- Settles O6: reading rejects the reserved select before any operand is looked at. -/
theorem reservedOpIsRefused : Obligations.ReservedOpIsRefused := by
  unfold Obligations.ReservedOpIsRefused
  intro s p rest hs hop
  obtain ⟨-, -, -, -, hd⟩ := opSelectsOperation p
  exact step_of_decode_error hs (hd hop)

/-- Settles O31: the credential is driven in the OK case alone, and no status has the code 0b11. -/
theorem statusCodesOfADecodeResult : Obligations.StatusCodesOfADecodeResult := by
  unfold Obligations.StatusCodesOfADecodeResult
  exact ⟨fun _ => ⟨rfl, rfl, rfl⟩, rfl, rfl, fun _ => ⟨rfl, rfl⟩, portsOut_status_ne_reserved⟩

end

section
/-! The family of 40_parity.md: what PAR answers, its bit as the XOR of a slice, trees of XOR gates, and the two fixed
parities. -/

namespace Sys2Proof

open Machine Safety

namespace Machine

/-! What exec answers for PAR, inside its precondition and outside it (R102). -/

theorem exec_par_of_le {start : BitVec 5} {length : BitVec 6} (h : start.toNat + length.toNat ≤ 32) (v : BitVec 32)
    (kind : ParityKind) (s : State) :
    exec (.par v start length kind) s = .next (s.respond (.parity (parity v start.toNat length.toNat kind))) :=
  if_pos h

theorem exec_par_of_gt {start : BitVec 5} {length : BitVec 6} (h : 32 < start.toNat + length.toNat) (v : BitVec 32)
    (kind : ParityKind) (s : State) : exec (.par v start length kind) s = .refused .parityRange :=
  if_neg (Nat.not_le.mpr h)

/-! PAR's bit as the XOR of a slice (R100). -/

theorem ofBool_xorReduce (v : BitVec 32) (start n : Nat) :
    BitVec.ofBool (xorReduce v start n) = xorAll (v.extractLsb' start n) :=
  xorReduce_eq_xorAll v start _ fun i hi => by rw [BitVec.getLsbD_extractLsb', decide_eq_true hi, Bool.true_and]

theorem bitOfKind_eq_ite (kind : ParityKind) : bitOfKind kind = if kind = .odd then 1#1 else 0#1 := by
  cases kind <;> rfl

theorem parity_eq_xorAll_slice (v : BitVec 32) (start n : Nat) (kind : ParityKind) :
    parity v start n kind = xorAll (v.extractLsb' start n) ^^^ bitOfKind kind := by
  rw [parity_eq, ofBool_xorReduce]

theorem p0Calc_eq_xorAll_slice (f : Frame) : p0Calc f = xorAll (f.extractLsb' 1 12) :=
  ofBool_xorReduce f 1 12

theorem p1Calc_eq_not_xorAll_slice (f : Frame) : p1Calc f = ~~~xorAll (f.extractLsb' 13 12) := by
  rw [← ofBool_xorReduce, BitVec.not_ofBool]
  rfl

/-! The ranges of the two fixed parities as slices of the credential (R104): bits 1 to 12 are the card number's low 12
bits, and bits 13 to 24 are its high 4 under the facility code. -/

/-- A slice inside a slice is a slice of the whole. -/
theorem slice_of_slice {w : Nat} (v : BitVec w) {a m b n : Nat} (h : b + n ≤ m) :
    (v.extractLsb' a m).extractLsb' b n = v.extractLsb' (a + b) n := by
  refine BitVec.eq_of_getLsbD_eq fun i hi => ?_
  simp [hi, show b + i < m by omega, Nat.add_assoc]

theorem unpack_cn_low (f : Frame) : (unpack f).cn.extractLsb' 0 12 = f.extractLsb' 1 12 :=
  slice_of_slice f (by omega)

theorem unpack_fc_append_cn_high (f : Frame) :
    (unpack f).fc ++ (unpack f).cn.extractLsb' 12 4 = f.extractLsb' 13 12 := by
  have hcn : (unpack f).cn.extractLsb' 12 4 = f.extractLsb' 13 4 := slice_of_slice f (by omega)
  rw [hcn]
  exact BitVec.extractLsb'_append_extractLsb'_eq_extractLsb' rfl

end Machine

namespace Safety

/-! Trees of XOR gates (R101). -/

/-- A tree outputs the parity of the number of its leaves that are 1, whatever its grouping. -/
theorem XorTree.countP_leaves_mod_two (v : BitVec 32) (t : XorTree) :
    t.leaves.countP v.getLsbD % 2 = (t.eval v).toNat := by
  induction t with
  | zero => rfl
  | bit i =>
    rw [XorTree.leaves, XorTree.eval, List.countP_singleton]
    cases v.getLsbD i <;> rfl
  | gate l r ihl ihr =>
    rw [XorTree.leaves, XorTree.eval, List.countP_append, Nat.add_mod, ihl, ihr]
    cases l.eval v <;> cases r.eval v <;> rfl

/-- A tree whose leaves are the bits of a range, in any order, outputs XOR_REDUCE of the range: both have the parity
of the range's count of ones, which no order changes. -/
theorem XorTree.eval_eq_xorReduce {v : BitVec 32} {t : XorTree} {start n : Nat}
    (h : t.leaves.Perm (List.range' start n)) : t.eval v = xorReduce v start n := by
  have hnat : (t.eval v).toNat = (xorReduce v start n).toNat := by
    rw [← t.countP_leaves_mod_two v, h.countP_eq, ← ones_mod_two]
    rfl
  rw [Bool.eq_iff_iff, ← Bool.toNat_eq_one, ← Bool.toNat_eq_one, hnat]

end Safety

end Sys2Proof

open Sys2Proof Sys2Proof.Machine

/-- Settles O19: inside the precondition the bit is the XOR of the shifted value's low bits, and outside it `exec`
refuses. -/
theorem parGivesTheParityOfTheRange : Obligations.ParGivesTheParityOfTheRange := by
  unfold Obligations.ParGivesTheParityOfTheRange
  intro v start length kind s
  refine ⟨?_, rfl⟩
  split
  case isTrue h =>
    rw [exec_par_of_le h, parity_eq_xorAll_slice, BitVec.setWidth_ushiftRight_eq_extractLsb, bitOfKind_eq_ite]
    rfl
  case isFalse h => exact exec_par_of_gt (Nat.not_le.mp h) v kind s

/-- Settles O22: the bit is the XOR of the range, or its inverse, which completes the count of ones. -/
theorem parCompletesTheCount : Obligations.ParCompletesTheCount := by
  unfold Obligations.ParCompletesTheCount
  intro v start length s h
  refine ⟨⟨_, exec_par_of_le h v .even s, ?_⟩, ⟨_, exec_par_of_le h v .odd s, ?_⟩⟩
  · rw [parity, BitVec.toNat_ofBool, ones_add_xorReduce]
  · rw [parity, BitVec.toNat_ofBool, ones_add_not_xorReduce]

/-- Settles O23: a tree over the bits of the range, in any grouping and order, outputs XOR_REDUCE of the range. -/
theorem anyXorTreeGivesParsBit : Obligations.AnyXorTreeGivesParsBit := by
  unfold Obligations.AnyXorTreeGivesParsBit
  intro v start length kind t s h hperm
  rw [exec_par_of_le h, parity_eq, t.eval_eq_xorReduce hperm, bitOfKind_eq_ite]

/-- Settles O24: each fixed parity is the XOR of one slice of 12 bits inside bits 1 to 24, which are the credential's. -/
theorem fixedParityInstances : Obligations.FixedParityInstances := by
  unfold Obligations.FixedParityInstances
  refine ⟨fun f s => ⟨exec_par_of_le (by decide) f .even s, exec_par_of_le (by decide) f .odd s⟩, fun f => ?fields,
    fun f g h => ?reads⟩
  case fields =>
    rw [unpack_cn_low, unpack_fc_append_cn_high]
    exact ⟨p0Calc_eq_xorAll_slice f, p1Calc_eq_not_xorAll_slice f, p0Calc_eq_xorAll_slice f,
      p1Calc_eq_not_xorAll_slice f⟩
  case reads =>
    have low : f.extractLsb' 1 12 = g.extractLsb' 1 12 := by
      rw [← slice_of_slice f (a := 1) (m := 24) (b := 0) (by omega), h, slice_of_slice g (by omega)]
    have high : f.extractLsb' 13 12 = g.extractLsb' 13 12 := by
      rw [← slice_of_slice f (a := 1) (m := 24) (b := 12) (by omega), h, slice_of_slice g (by omega)]
    simp only [p0Calc_eq_xorAll_slice, p1Calc_eq_not_xorAll_slice, low, high, and_self]

/-- Settles O20: XOR_REDUCE of no bits is 0, at every start a port can hold. -/
theorem parOfNoBits : Obligations.ParOfNoBits := by
  unfold Obligations.ParOfNoBits
  intro v start s
  have h : start.toNat + (0#6).toNat ≤ 32 := Nat.le_of_lt start.isLt
  exact ⟨exec_par_of_le h v .even s, exec_par_of_le h v .odd s⟩

/-- Settles O21: inside the precondition `exec` answers a next state, so the two cases exclude each other. -/
theorem parOutsideItsPreconditionIsRefused : Obligations.ParOutsideItsPreconditionIsRefused := by
  unfold Obligations.ParOutsideItsPreconditionIsRefused
  intro v start length kind s
  refine ⟨⟨fun hrefused => ?_, fun h => exec_par_of_gt h v kind s⟩, fun h t => ?_⟩
  · by_contra hle
    rw [exec_par_of_le (Nat.not_lt.mp hle)] at hrefused
    cases hrefused
  · rw [exec_par_of_gt h]
    exact nofun

end

section
/-! The family of 41_field_mux.md: PACK and the placed frame as concatenations of their fields, UNPACK of a
concatenation, and bits 31 to 26. -/

namespace Sys2Proof.Machine

/-! PACK and the placements lay the fields side by side (R120 to R122). -/

/-- PACK and both placements: each of the frame's bits comes from the one field that stands there. -/
theorem place_pack_eq_append (fc : FacilityCode) (cn : CardNumber) (a b : Bit) :
    placeP1 (placeP0 (pack fc cn) a) b = 0#6 ++ a ++ fc ++ cn ++ b := by
  refine BitVec.eq_of_getLsbD_eq fun i _ => ?_
  have in_cn : i - 1 < 16 ↔ i < 17 := by omega
  have in_fc : i - (1 + 16) < 8 ↔ i < 25 := by omega
  have in_p0 : i - (1 + 16 + 8) < 1 ↔ i < 26 := by omega
  simp only [placeP1_getLsbD, placeP0_getLsbD, pack_getLsbD, BitVec.getLsbD_append, Nat.sub_sub,
    Nat.lt_one_iff, in_cn, in_fc, in_p0]
  obtain rfl | rfl | ⟨h0, h25⟩ : i = 0 ∨ i = 25 ∨ i ≠ 0 ∧ i ≠ 25 := by omega
  · simp
  · simp
  · simp only [h0, h25, if_false, decide_false, Bool.false_and, Bool.or_false]
    split
    · rfl
    · split
      · rfl
      · -- Above the facility code both sides are zero.
        rw [if_neg (by omega), BitVec.getLsbD_zero, BitVec.getLsbD_of_ge fc (i - 17) (by omega)]

/-- With both parity bits zero the placements change nothing. -/
theorem place_zero (f : Frame) : placeP1 (placeP0 f 0#1) 0#1 = f := by
  simp [placeP0, placeP1]

/-- PACK is the placed frame whose parity bits are zero (R120). -/
theorem pack_eq_append (fc : FacilityCode) (cn : CardNumber) : pack fc cn = 0#7 ++ fc ++ cn ++ 0#1 := by
  rw [← place_zero (pack fc cn), place_pack_eq_append]
  rfl

/-! UNPACK takes the concatenation apart (R123, R125). -/

/-- UNPACK of fields laid side by side gives them, whatever stands above them (R123, R124). -/
theorem unpack_append (u : BitVec 6) (p0 : Bit) (fc : FacilityCode) (cn : CardNumber) (p1 : Bit) :
    unpack (u ++ p0 ++ fc ++ cn ++ p1) = ⟨fc, cn, p0, p1⟩ := by
  rw [unpack, Fields.mk.injEq]
  refine ⟨?facilityCode, ?cardNumber, ?even, ?odd⟩
  case facilityCode =>
    rw [BitVec.extractLsb'_append_eq_of_le (by decide), BitVec.extractLsb'_append_eq_of_le (by decide)]
    exact BitVec.extractLsb'_append_eq_right
  case cardNumber =>
    rw [BitVec.extractLsb'_append_eq_of_le (by decide)]
    exact BitVec.extractLsb'_append_eq_right
  case even =>
    rw [BitVec.extractLsb'_append_eq_of_le (by decide), BitVec.extractLsb'_append_eq_of_le (by decide),
      BitVec.extractLsb'_append_eq_of_le (by decide)]
    exact BitVec.extractLsb'_append_eq_right
  case odd => exact BitVec.extractLsb'_append_eq_right

/-- UNPACK takes back what PACK and the placements put in (R125). -/
theorem unpack_place_pack (fc : FacilityCode) (cn : CardNumber) (a b : Bit) :
    unpack (placeP1 (placeP0 (pack fc cn) a) b) = ⟨fc, cn, a, b⟩ := by
  rw [place_pack_eq_append, unpack_append]

/-- UNPACK of a packed frame: the fields, and the parity positions that PACK leaves zero. -/
theorem unpack_pack (fc : FacilityCode) (cn : CardNumber) : unpack (pack fc cn) = ⟨fc, cn, 0#1, 0#1⟩ := by
  rw [← place_zero (pack fc cn), unpack_place_pack]

/-- A frame is its unused bits and its unpacked fields side by side: neighbouring slices join. -/
theorem unused_append_unpack (f : Frame) :
    f.extractLsb' 26 6 ++ (unpack f).p0 ++ (unpack f).fc ++ (unpack f).cn ++ (unpack f).p1 = f := by
  simp only [unpack]
  rw [BitVec.extractLsb'_append_extractLsb'_eq_extractLsb' (start₁ := 25) (len₁ := 1) rfl,
    BitVec.extractLsb'_append_extractLsb'_eq_extractLsb' (start₁ := 17) (len₁ := 8) rfl,
    BitVec.extractLsb'_append_extractLsb'_eq_extractLsb' (start₁ := 1) (len₁ := 16) rfl,
    BitVec.extractLsb'_append_extractLsb'_eq_extractLsb' (start₁ := 0) (len₁ := 1) rfl]
  exact BitVec.extractLsb'_eq_self

/-! Bits 31 to 26 (R124). -/

/-- Frames that agree at every bit from 26 on have the same unused bits. -/
theorem unused_congr {f g : Frame} (h : ∀ i, 26 ≤ i → f.getLsbD i = g.getLsbD i) :
    f.extractLsb' 26 6 = g.extractLsb' 26 6 :=
  BitVec.eq_of_getLsbD_eq fun i _ => by
    rw [BitVec.getLsbD_extractLsb', BitVec.getLsbD_extractLsb', h _ (Nat.le_add_right 26 i)]

theorem unused_pack (fc : FacilityCode) (cn : CardNumber) : (pack fc cn).extractLsb' 26 6 = 0#6 := by
  rw [pack_eq_append, BitVec.extractLsb'_append_eq_of_le (by decide), BitVec.extractLsb'_append_eq_of_le (by decide),
    BitVec.extractLsb'_append_eq_of_le (by decide)]
  rfl

theorem unused_placeP0 (f : Frame) (a : Bit) : (placeP0 f a).extractLsb' 26 6 = f.extractLsb' 26 6 :=
  unused_congr fun i hi => by
    rw [placeP0_getLsbD, decide_eq_false (by omega), Bool.false_and, Bool.or_false]

theorem unused_placeP1 (f : Frame) (a : Bit) : (placeP1 f a).extractLsb' 26 6 = f.extractLsb' 26 6 :=
  unused_congr fun i hi => by
    rw [placeP1_getLsbD, decide_eq_false (by omega), Bool.false_and, Bool.or_false]

/-- UNPACK's outputs are slices of bits 25 to 0. -/
theorem unpack_eq_slices_of_used (f : Frame) :
    unpack f = ⟨(f.extractLsb' 0 26).extractLsb' 17 8, (f.extractLsb' 0 26).extractLsb' 1 16,
      (f.extractLsb' 0 26).extractLsb' 25 1, (f.extractLsb' 0 26).extractLsb' 0 1⟩ := by
  rw [slice_of_slice f (by decide), slice_of_slice f (by decide), slice_of_slice f (by decide),
    slice_of_slice f (by decide)]
  rfl

end Sys2Proof.Machine

open Sys2Proof Sys2Proof.Machine

/-- Settles O16: the placed frame is the concatenation of its fields, which UNPACK takes apart, and every frame is the
concatenation of its unused bits and its unpacked fields. -/
theorem unpackInvertsPackAndPlace : Obligations.UnpackInvertsPackAndPlace := by
  unfold Obligations.UnpackInvertsPackAndPlace
  refine ⟨unpack_place_pack, fun fc fc' cn cn' h => ?injective, fun f hunused => ?rebuilt⟩
  case injective =>
    have hfields := congrArg unpack h
    rw [unpack_pack, unpack_pack, Fields.mk.injEq] at hfields
    obtain ⟨hfc, hcn, -, -⟩ := hfields
    exact ⟨hfc, hcn⟩
  case rebuilt =>
    rw [place_pack_eq_append, ← hunused, unused_append_unpack]

/-- Settles O17: PACK's high slice is the high 6 of its seven zeros, each placement writes a bit below 26, and UNPACK is
slices of bits 25 to 0. -/
theorem unusedBitsAreUntouched : Obligations.UnusedBitsAreUntouched := by
  unfold Obligations.UnusedBitsAreUntouched
  refine ⟨unused_pack, fun f a => ⟨unused_placeP0 f a, unused_placeP1 f a⟩, fun f g h => ?_⟩
  rw [unpack_eq_slices_of_used, unpack_eq_slices_of_used, h]

/-- Settles O15: PACK is the placed frame whose parity bits are zero; the corner cases and the example are evaluated. -/
theorem packIsTheConcatenation : Obligations.PackIsTheConcatenation := by
  unfold Obligations.PackIsTheConcatenation
  exact ⟨pack_eq_append, by decide, by decide, by decide⟩

end

section
/-! The family of 42_encode.md: ENC's frame as its packed fields with both parity bits placed, the parities of those
fields, and DEC of the frame's wire bytes. -/

namespace Sys2Proof.Machine

open Safety

/-! Both parities read the fields alone, so placing a parity bit changes neither, and the placements commute (R143). -/

theorem parityCalc_placeP0 (f : Frame) (a : Bit) :
    p0Calc (placeP0 f a) = p0Calc f ∧ p1Calc (placeP0 f a) = p1Calc f :=
  parityCalc_congr fun i _ h24 => by
    rw [placeP0_getLsbD, decide_eq_false (by omega), Bool.false_and, Bool.or_false]

theorem parityCalc_placeP1 (f : Frame) (b : Bit) :
    p0Calc (placeP1 f b) = p0Calc f ∧ p1Calc (placeP1 f b) = p1Calc f :=
  parityCalc_congr fun i h1 _ => by
    rw [placeP1_getLsbD, decide_eq_false (by omega), Bool.false_and, Bool.or_false]

theorem placeP0_placeP1_comm (f : Frame) (a b : Bit) : placeP0 (placeP1 f b) a = placeP1 (placeP0 f a) b := by
  simp only [placeP0, placeP1, BitVec.or_assoc, BitVec.or_comm (b.setWidth 32 <<< Config.p1Pos)]

/-! ENC's frame holds the fields and the parities of the packed fields (R140). -/

/-- The reference order computes P1 after P0 is placed; computing it from PACK gives the same frame. -/
theorem encodeFrame_eq_place (fc : FacilityCode) (cn : CardNumber) :
    encodeFrame fc cn = placeP1 (placeP0 (pack fc cn) (p0Calc (pack fc cn))) (p1Calc (pack fc cn)) := by
  rw [encodeFrame, (parityCalc_placeP0 (pack fc cn) _).2]

theorem unpack_encodeFrame (fc : FacilityCode) (cn : CardNumber) :
    unpack (encodeFrame fc cn) = ⟨fc, cn, p0Calc (pack fc cn), p1Calc (pack fc cn)⟩ := by
  rw [encodeFrame_eq_place, unpack_place_pack]

theorem unused_encodeFrame (fc : FacilityCode) (cn : CardNumber) : (encodeFrame fc cn).extractLsb' 26 6 = 0#6 := by
  rw [encodeFrame_eq_place, unused_placeP1, unused_placeP0, unused_pack]

/-- Distinct credentials have distinct frames, since UNPACK finds the fields in each (R144). -/
theorem encodeFrame_inj {fc fc' : FacilityCode} {cn cn' : CardNumber} (h : encodeFrame fc cn = encodeFrame fc' cn') :
    fc = fc' ∧ cn = cn' := by
  have hfields := congrArg unpack h
  rw [unpack_encodeFrame, unpack_encodeFrame, Fields.mk.injEq] at hfields
  obtain ⟨hfc, hcn, -, -⟩ := hfields
  exact ⟨hfc, hcn⟩

/-! The parities of the packed fields, as those of the credential (R141, R142). -/

theorem p0Calc_pack (fc : FacilityCode) (cn : CardNumber) : p0Calc (pack fc cn) = xorAll (cn.extractLsb' 0 12) := by
  rw [p0Calc_eq_xorAll_slice, ← unpack_cn_low, unpack_pack]

theorem p1Calc_pack (fc : FacilityCode) (cn : CardNumber) :
    p1Calc (pack fc cn) = ~~~xorAll (fc ++ cn.extractLsb' 12 4) := by
  rw [p1Calc_eq_not_xorAll_slice, ← unpack_fc_append_cn_high, unpack_pack]

/-- ENC's frame in the closed form of R140. -/
theorem encodeFrame_eq_append (fc : FacilityCode) (cn : CardNumber) :
    encodeFrame fc cn =
      0#6 ++ xorAll (cn.extractLsb' 0 12) ++ fc ++ cn ++ ~~~xorAll (fc ++ cn.extractLsb' 12 4) := by
  rw [encodeFrame_eq_place, place_pack_eq_append, p0Calc_pack, p1Calc_pack]

/-- With the unused bits zero, byte 3 holds only frame bits 24 and 25 (R144). -/
theorem byte3_le_of_unused {f : Frame} (h : f.extractLsb' 26 6 = 0#6) : (f.extractLsb' 24 8).toNat ≤ 3 := by
  have hbyte : f.extractLsb' 24 8 = 0#6 ++ f.extractLsb' 24 2 := by
    rw [← h, BitVec.extractLsb'_append_extractLsb'_eq_extractLsb' (start₁ := 24) (len₁ := 2) rfl]
  rw [hbyte, BitVec.toNat_append]
  simpa using Nat.le_of_lt_succ (f.extractLsb' 24 2).isLt

/-! DEC of a frame's wire bytes, and of ENC's frame (R146). -/

/-- DEC of the wire bytes of a frame checks that frame, which they rebuild. -/
theorem decodeBytes_wireBytes (f : Frame) : decodeBytes (wireBytes f) = decodeFrame f := by
  rw [wireBytes, decodeBytes, rebuild_slices]

/-- Ports with `dcount` 4 show all four wire bytes of `din` (R64). -/
theorem portBytes_four (din : BitVec 32) : portBytes din 4#3 = wireBytes din := rfl

/-- The parities DEC recomputes from ENC's frame are those ENC stored in it. -/
theorem decodeFrame_encodeFrame (fc : FacilityCode) (cn : CardNumber) :
    decodeFrame (encodeFrame fc cn) = .ok ⟨fc, cn⟩ := by
  obtain ⟨hp0, hp1⟩ := parityCalc_encodeFrame fc cn
  rw [decodeFrame_eq_ok, unpack_encodeFrame]
  exact ⟨hp0, hp1, rfl⟩

theorem decodeBytes_wireBytes_encodeFrame (fc : FacilityCode) (cn : CardNumber) :
    decodeBytes (wireBytes (encodeFrame fc cn)) = .ok ⟨fc, cn⟩ := by
  rw [decodeBytes_wireBytes, decodeFrame_encodeFrame]

end Sys2Proof.Machine

open Sys2Proof Sys2Proof.Machine

/-- Settles O33: the wire bytes rebuild ENC's frame, which DEC accepts, since placing the parity bits changed neither
parity. -/
theorem decInvertsEnc : Obligations.DecInvertsEnc := by
  unfold Obligations.DecInvertsEnc
  refine fun fc cn => ⟨decodeBytes_wireBytes_encodeFrame fc cn, fun s => ⟨encodeFrame fc cn, exec_enc fc cn s, ?_⟩⟩
  rw [exec_dec, portBytes_four, decodeBytes_wireBytes_encodeFrame]

/-- Settles O10: the placed frame is the concatenation of its fields, with the parities of the credential. -/
theorem encGivesTheClosedForm : Obligations.EncGivesTheClosedForm := by
  unfold Obligations.EncGivesTheClosedForm
  refine fun fc cn s => ⟨?_, rfl, rfl⟩
  rw [exec_enc, encodeFrame_eq_append]
  rfl

/-- Settles O12: UNPACK reads the stored parity bits, which are those of the packed fields. -/
theorem encParityBitsOfTheCredential : Obligations.EncParityBitsOfTheCredential := by
  unfold Obligations.EncParityBitsOfTheCredential
  intro fc cn
  have hfields := unpack_encodeFrame fc cn
  rw [p0Calc_pack, p1Calc_pack] at hfields
  exact ⟨congrArg Fields.p0 hfields, congrArg Fields.p1 hfields⟩

/-- Settles O13: UNPACK finds both fields in the frame, and the zero unused bits bound byte 3. -/
theorem encOutputProperties : Obligations.EncOutputProperties := by
  unfold Obligations.EncOutputProperties
  intro fc cn
  have hunused := unused_encodeFrame fc cn
  have hfields := unpack_encodeFrame fc cn
  exact ⟨exec_enc fc cn, hunused, ⟨_, _, _, _, rfl, byte3_le_of_unused hunused⟩, congrArg Fields.cn hfields,
    congrArg Fields.fc hfields, fun _ _ => encodeFrame_inj⟩

/-- Settles O14: no placement changes a parity, and the two placements commute. -/
theorem placementOrderDoesNotMatter : Obligations.PlacementOrderDoesNotMatter := by
  unfold Obligations.PlacementOrderDoesNotMatter
  intro fc cn
  refine ⟨?_, (encodeFrame_eq_place fc cn).symm⟩
  rw [(parityCalc_placeP1 (pack fc cn) _).1, placeP0_placeP1_comm, encodeFrame_eq_place]

end

section
/-! The family of 43_decode.md: DEC as a check of the fields UNPACK gives, the bytes its ports show, the frames it
accepts, and which flipped bits it sees. -/

namespace Sys2Proof.Machine

open Safety

/-! Both parities, and so DEC's result, are functions of what UNPACK gives, which is bits 25 to 0 (R163, R166). -/

theorem parityCalc_eq_of_unpack (f : Frame) :
    p0Calc f = p0Calc (pack (unpack f).fc (unpack f).cn) ∧ p1Calc f = p1Calc (pack (unpack f).fc (unpack f).cn) := by
  rw [p0Calc_pack, p1Calc_pack, unpack_cn_low, unpack_fc_append_cn_high, p0Calc_eq_xorAll_slice,
    p1Calc_eq_not_xorAll_slice]
  exact ⟨rfl, rfl⟩

/-- Bits 25 to 0 are UNPACK's four outputs side by side. -/
theorem used_eq_append_unpack (f : Frame) :
    f.extractLsb' 0 26 = (unpack f).p0 ++ (unpack f).fc ++ (unpack f).cn ++ (unpack f).p1 := by
  simp only [unpack]
  rw [BitVec.extractLsb'_append_extractLsb'_eq_extractLsb' (start₁ := 17) (len₁ := 8) rfl,
    BitVec.extractLsb'_append_extractLsb'_eq_extractLsb' (start₁ := 1) (len₁ := 16) rfl,
    BitVec.extractLsb'_append_extractLsb'_eq_extractLsb' (start₁ := 0) (len₁ := 1) rfl]

theorem used_eq_iff_unpack_eq {f g : Frame} : f.extractLsb' 0 26 = g.extractLsb' 0 26 ↔ unpack f = unpack g :=
  ⟨fun h => by rw [unpack_eq_slices_of_used, h, ← unpack_eq_slices_of_used],
    fun h => by rw [used_eq_append_unpack, h, ← used_eq_append_unpack]⟩

/-- DEC accepts a frame as `c` exactly when UNPACK gives what it gives of ENC's frame of `c` (R169). -/
theorem decodeFrame_eq_ok_iff_unpack {f : Frame} {c : Credential} :
    decodeFrame f = .ok c ↔ unpack f = unpack (encodeFrame c.facilityCode c.cardNumber) := by
  obtain ⟨hp0, hp1⟩ := parityCalc_eq_of_unpack f
  rw [decodeFrame_eq_ok, unpack_encodeFrame]
  constructor
  · rintro ⟨h0, h1, rfl⟩
    rw [← hp0, ← hp1, h0, h1]
  · intro h
    rw [h] at hp0 hp1 ⊢
    exact ⟨hp0, hp1, rfl⟩

theorem decodeFrame_eq_ok_iff_used {f : Frame} {c : Credential} :
    decodeFrame f = .ok c ↔
      f.extractLsb' 0 26 = (encodeFrame c.facilityCode c.cardNumber).extractLsb' 0 26 := by
  rw [decodeFrame_eq_ok_iff_unpack, used_eq_iff_unpack_eq]

/-- DEC reads no bit above 25 (R166). -/
theorem decodeFrame_congr_used {f g : Frame} (h : f.extractLsb' 0 26 = g.extractLsb' 0 26) :
    decodeFrame f = decodeFrame g := by
  rw [used_eq_iff_unpack_eq] at h
  obtain ⟨f0, f1⟩ := parityCalc_eq_of_unpack f
  obtain ⟨g0, g1⟩ := parityCalc_eq_of_unpack g
  rw [decodeFrame, decodeFrame, f0, f1, g0, g1, h]

/-- DEC's check with both parities and every output written as slices of the frame (R163, R164). -/
theorem decodeFrame_eq_ite (f : Frame) :
    decodeFrame f =
      if xorAll (f.extractLsb' 1 12) ≠ f.extractLsb' 25 1 ∨ ~~~xorAll (f.extractLsb' 13 12) ≠ f.extractLsb' 0 1 then
        .err .parityMismatch
      else .ok ⟨f.extractLsb' 17 8, f.extractLsb' 1 16⟩ := by
  rw [← p0Calc_eq_xorAll_slice, ← p1Calc_eq_not_xorAll_slice]
  rfl

theorem decodeFrame_ne_tooShort (f : Frame) : decodeFrame f ≠ .err .tooShort := by
  rcases decodeFrame_cases f with h | h <;> rw [h] <;> exact nofun

/-! The credentials and the frames accepted, counted (R169). -/

/-- Bits 25 to 0 of a credential's frame. -/
def usedBitsOf (c : Credential) : BitVec 26 := (encodeFrame c.facilityCode c.cardNumber).extractLsb' 0 26

theorem usedBitsOf_injective : Function.Injective usedBitsOf := by
  intro c d h
  have hc : decodeFrame (encodeFrame c.facilityCode c.cardNumber) = .ok c := decodeFrame_encodeFrame _ _
  have hd : decodeFrame (encodeFrame c.facilityCode c.cardNumber) = .ok d := decodeFrame_eq_ok_iff_used.mpr h
  rw [hc, DecodeResult.ok.injEq] at hd
  exact hd

/-- The values of bits 25 to 0 that DEC accepts are those ENC gives. -/
theorem accepted_eq_range_usedBitsOf :
    { v : BitVec 26 | ∃ c, decodeFrame (v.setWidth 32) = .ok c } = Set.range usedBitsOf := by
  ext v
  have hv : (v.setWidth 32).extractLsb' 0 26 = v := by
    rw [← BitVec.setWidth_eq_extractLsb' (by decide), BitVec.setWidth_setWidth_of_le _ (by decide),
      BitVec.setWidth_eq]
  simp only [Set.mem_ofPred_eq, Set.mem_range, decodeFrame_eq_ok_iff_used, hv, usedBitsOf, eq_comm (a := v)]

/-- A credential is its pair of fields. -/
def credentialEquivProd : Credential ≃ FacilityCode × CardNumber where
  toFun c := (c.facilityCode, c.cardNumber)
  invFun p := ⟨p.1, p.2⟩

theorem natCard_bitVec (w : Nat) : Nat.card (BitVec w) = 2 ^ w := by
  rw [Nat.card_congr BitVec.equivFin.toEquiv, Nat.card_fin]

theorem natCard_credential : Nat.card Credential = 2 ^ 24 := by
  rw [Nat.card_congr credentialEquivProd, Nat.card_prod, natCard_bitVec, natCard_bitVec, ← Nat.pow_add]

/-! DEC of a byte sequence, and of the bytes its ports show (R160 to R162). -/

theorem decodeBytes_of_length_lt {bs : List Byte} (h : bs.length < 4) : decodeBytes bs = .err .tooShort := by
  match bs, h with
  | [], _ | [_], _ | [_, _], _ | [_, _, _], _ => rfl

theorem decodeBytes_eq_tooShort_iff (bs : List Byte) : decodeBytes bs = .err .tooShort ↔ bs.length < 4 := by
  refine ⟨fun h => ?_, decodeBytes_of_length_lt⟩
  match bs, h with
  | [], _ | [_], _ | [_, _], _ | [_, _, _], _ => simp
  | _ :: _ :: _ :: _ :: _, h => exact absurd h (decodeFrame_ne_tooShort _)

theorem length_portBytes (din : BitVec 32) (dcount : BitVec 3) :
    (portBytes din dcount).length = min dcount.toNat 4 := by
  rw [portBytes, List.length_take, length_wireBytes]

/-- DEC at its ports: below 4 bytes `din` is not read, and from 4 on it is the frame checked (R161, R163). -/
theorem decodeBytes_portBytes (din : BitVec 32) (dcount : BitVec 3) :
    decodeBytes (portBytes din dcount) = if dcount.toNat < 4 then .err .tooShort else decodeFrame din := by
  split
  case isTrue h => exact decodeBytes_of_length_lt (by rw [length_portBytes]; omega)
  case isFalse h =>
    rw [portBytes, List.take_of_length_le (by rw [length_wireBytes]; omega), decodeBytes_wireBytes]

theorem respond_decoded_inj {s : State} {r r' : DecodeResult} :
    (Host.Outcome.next (s.respond (.decoded r)) : Host.Outcome State Fault Refusal) =
      .next (s.respond (.decoded r')) ↔ r = r' := by
  simp [State.respond]

/-! What a flip changes (R170). Each of DEC's two checks reads a parity range and the stored bit that completes it, and
a flip inverts a check exactly when the check reads the flipped bit. -/

/-- The XOR of all bits that the check over the range from `start`, with its stored bit at `pos`, reads. -/
def parityCheck (f : Frame) (start pos : Nat) : Bool := xorReduce f start 12 ^^ f.getLsbD pos

/-- The check over the range from `start`, with its stored bit at `pos`, reads bit `i`. -/
abbrev Checks (start pos i : Nat) : Prop := start ≤ i ∧ i < start + 12 ∨ i = pos

/-- Of bits 0 to 25 each is read by one of the two checks and not by the other. -/
theorem checks_p1_iff_not_checks_p0 {i : Nat} (hi : i ≤ 25) : Checks 13 0 i ↔ ¬ Checks 1 25 i := by
  unfold Checks
  omega

/-- A stored parity bit is the XOR of its range, or its inverse, as the check over both comes to 0 or 1. -/
theorem ofBool_eq_slice_iff_parityCheck (f : Frame) (start pos : Nat) (b : Bool) :
    BitVec.ofBool (xorReduce f start 12 ^^ b) = f.extractLsb' pos 1 ↔ parityCheck f start pos = b := by
  have hstored : f.extractLsb' pos 1 = BitVec.ofBool (f.getLsbD pos) := BitVec.eq_of_getLsbD_eq fun k hk => by
    obtain rfl : k = 0 := by omega
    simp
  have hswap : ∀ x y z : Bool, (x ^^ y) = z ↔ (x ^^ z) = y := by decide
  rw [hstored, BitVec.ofBool_eq_iff_eq, hswap, parityCheck]

/-- DEC accepts a frame exactly when bits 1 to 12 and 25 have an even, and bits 0 and 13 to 24 an odd, XOR (R163). -/
theorem accepted_iff_parityCheck (f : Frame) :
    (∃ c, decodeFrame f = .ok c) ↔ parityCheck f 1 25 = false ∧ parityCheck f 13 0 = true := by
  rw [← ofBool_eq_slice_iff_parityCheck, ← ofBool_eq_slice_iff_parityCheck, Bool.xor_false, Bool.xor_true]
  simp only [decodeFrame_eq_ok, exists_and_left, exists_eq, and_true]
  rfl

theorem parityCheck_flipBit (f : Frame) {start pos i : Nat} (hi : i < 32) (hpos : pos < start ∨ start + 12 ≤ pos) :
    parityCheck (flipBit f i) start pos = (parityCheck f start pos ^^ decide (Checks start pos i)) := by
  have hread : decide (Checks start pos i) = (decide (start ≤ i ∧ i < start + 12) ^^ decide (i = pos)) := by
    by_cases h : i = pos
    · have hout : ¬ (start ≤ i ∧ i < start + 12) := by omega
      rw [decide_eq_true (.inr h), decide_eq_false hout, decide_eq_true h, Bool.false_xor]
    · rw [decide_eq_false h, Bool.xor_false, decide_eq_decide]
      exact or_iff_left h
  rw [parityCheck, parityCheck, xorReduce_flipBit f i start 12 hi, flipBit_getLsbD f i pos hi, hread,
    Bool.xor_assoc, Bool.xor_assoc, Bool.xor_left_comm (f.getLsbD pos)]

/-- Two flips that a check reads both of, or neither, leave it as it was. -/
theorem parityCheck_flipBit_flipBit (f : Frame) {start pos i j : Nat} (hi : i < 32) (hj : j < 32)
    (hpos : pos < start ∨ start + 12 ≤ pos) (h : Checks start pos i ↔ Checks start pos j) :
    parityCheck (flipBit (flipBit f i) j) start pos = parityCheck f start pos := by
  rw [parityCheck_flipBit _ hj hpos, parityCheck_flipBit f hi hpos, decide_eq_decide.mpr h, Bool.xor_assoc,
    Bool.xor_self, Bool.xor_false]

/-- A flip of one of bits 0 to 25 of an accepted frame inverts one of the checks, and so is detected. -/
theorem decodeFrame_flipBit_of_used {f : Frame} {c : Credential} (hf : decodeFrame f = .ok c) {i : Nat}
    (hi : i ≤ 25) : decodeFrame (flipBit f i) = .err .parityMismatch := by
  refine (decodeFrame_cases _).resolve_left fun hok => ?_
  obtain ⟨f0, f1⟩ := (accepted_iff_parityCheck f).mp ⟨_, hf⟩
  obtain ⟨g0, g1⟩ := (accepted_iff_parityCheck _).mp ⟨_, hok⟩
  rw [parityCheck_flipBit f (by omega) (by decide), f0, Bool.false_xor, decide_eq_false_iff_not] at g0
  rw [parityCheck_flipBit f (by omega) (by decide), f1, Bool.true_xor, Bool.not_eq_true', decide_eq_false_iff_not,
    checks_p1_iff_not_checks_p0 hi] at g1
  exact g1 g0

theorem used_getLsbD (f : Frame) {k : Nat} (hk : k < 26) : (f.extractLsb' 0 26).getLsbD k = f.getLsbD k := by
  rw [BitVec.getLsbD_extractLsb', decide_eq_true hk, Bool.true_and, Nat.zero_add]

/-- A flip above bit 25 leaves the bits that DEC reads. -/
theorem decodeFrame_flipBit_of_unused (f : Frame) {i : Nat} (h26 : 26 ≤ i) (h31 : i ≤ 31) :
    decodeFrame (flipBit f i) = decodeFrame f := by
  refine decodeFrame_congr_used (BitVec.eq_of_getLsbD_eq fun k hk => ?_)
  rw [used_getLsbD _ hk, used_getLsbD _ hk, flipBit_getLsbD f i k (by omega), decide_eq_false (by omega),
    Bool.xor_false]

/-- Two flips that the same check reads are missed: the frame is accepted, with another credential. -/
theorem decodeFrame_flipBit_flipBit {f : Frame} {c : Credential} (hf : decodeFrame f = .ok c) {i j : Nat}
    (hi : i ≤ 25) (hj : j ≤ 25) (hij : i ≠ j) (h0 : Checks 1 25 i ↔ Checks 1 25 j) :
    ∃ c', c' ≠ c ∧ decodeFrame (flipBit (flipBit f i) j) = .ok c' := by
  have h1 : Checks 13 0 i ↔ Checks 13 0 j := by
    rw [checks_p1_iff_not_checks_p0 hi, checks_p1_iff_not_checks_p0 hj, h0]
  obtain ⟨c', hc'⟩ : ∃ c', decodeFrame (flipBit (flipBit f i) j) = .ok c' := by
    rw [accepted_iff_parityCheck, parityCheck_flipBit_flipBit f (by omega) (by omega) (by decide) h0,
      parityCheck_flipBit_flipBit f (by omega) (by omega) (by decide) h1, ← accepted_iff_parityCheck]
    exact ⟨c, hf⟩
  refine ⟨c', ?_, hc'⟩
  rintro rfl
  -- One credential has one value of bits 25 to 0, but the two frames differ at bit `i`.
  have hused := (decodeFrame_eq_ok_iff_used.mp hc').trans (decodeFrame_eq_ok_iff_used.mp hf).symm
  have hbit := congrArg (·.getLsbD i) hused
  simp only [used_getLsbD _ (show i < 26 by omega), flipBit_getLsbD _ _ _ (show i < 32 by omega),
    flipBit_getLsbD _ _ _ (show j < 32 by omega), decide_eq_false hij.symm, decide_true,
    Bool.xor_false, Bool.xor_true, Bool.not_eq_self] at hbit

/-- A flip changes the XOR of exactly the ranges that hold the bit. -/
theorem xorReduce_flipBit_ne_iff (f : Frame) {i : Nat} (start n : Nat) (hi : i < 32) :
    xorReduce (flipBit f i) start n ≠ xorReduce f start n ↔ start ≤ i ∧ i < start + n := by
  rw [xorReduce_flipBit f i start n hi]
  cases xorReduce f start n <;> simp

theorem p0Calc_flipBit_ne_iff (f : Frame) {i : Nat} (hi : i < 32) :
    p0Calc (flipBit f i) ≠ p0Calc f ↔ 1 ≤ i ∧ i < 13 := by
  rw [← xorReduce_flipBit_ne_iff f 1 12 hi]
  exact not_congr BitVec.ofBool_eq_iff_eq

theorem p1Calc_flipBit_ne_iff (f : Frame) {i : Nat} (hi : i < 32) :
    p1Calc (flipBit f i) ≠ p1Calc f ↔ 13 ≤ i ∧ i < 25 := by
  rw [← xorReduce_flipBit_ne_iff f 13 12 hi]
  exact not_congr (BitVec.ofBool_eq_iff_eq.trans Bool.not_inj_iff)

end Sys2Proof.Machine

open Sys2Proof Sys2Proof.Machine

/-- Settles O32: UNPACK of an accepted frame is that of ENC's, and ENC's values of bits 25 to 0 are as many as the
credentials. -/
theorem acceptedFramesAreEncoderOutputs : Obligations.AcceptedFramesAreEncoderOutputs := by
  unfold Obligations.AcceptedFramesAreEncoderOutputs
  refine ⟨fun _ _ _ _ _ _ => decodeFrame_eq_ok_iff_used, ?_⟩
  rw [accepted_eq_range_usedBitsOf, Set.ncard_range_of_injective usedBitsOf_injective, natCard_credential]

/-- Settles O25: `exec_dec` and DEC of the shown bytes, with the check written as slices. -/
theorem decAnswersAtItsPorts : Obligations.DecAnswersAtItsPorts := by
  unfold Obligations.DecAnswersAtItsPorts
  refine fun din dcount s => ⟨?_, rfl⟩
  rw [exec_dec, decodeBytes_portBytes, decodeFrame_eq_ite]
  rfl

/-- Settles O26: the port form is that of O27, and from 4 bytes on the concatenation is the frame checked. -/
theorem decOfAByteSequence : Obligations.DecOfAByteSequence := by
  unfold Obligations.DecOfAByteSequence
  obtain ⟨hports, -⟩ := decPortFormIsTheSequenceForm
  refine ⟨fun bs din dcount s h => ⟨hports bs din dcount s h, rfl⟩,
    fun bs => decodeBytes_of_length_lt, fun b0 b1 b2 b3 rest => ?_⟩
  rw [decodeBytes, rebuild_eq_append, decodeFrame_eq_ite]

/-- Settles O28: a frame of 4 bytes never gives TOO_SHORT, and below 4 `din` stands in no answer. -/
theorem tooShortExactlyBelowFourBytes : Obligations.TooShortExactlyBelowFourBytes := by
  unfold Obligations.TooShortExactlyBelowFourBytes
  refine ⟨decodeBytes_eq_tooShort_iff, fun din dcount s => ⟨?_, fun h din' => ?_⟩⟩
  · rw [exec_dec, respond_decoded_inj, decodeBytes_eq_tooShort_iff, length_portBytes]
    omega
  · have hlt : dcount.toNat < 4 := by omega
    rw [exec_dec, exec_dec, decodeBytes_portBytes, decodeBytes_portBytes, if_pos hlt, if_pos hlt]

/-- Settles O29: the first 4 bytes, which are all that DEC reads, are those of the first sequence. -/
theorem bytesBeyondTheFourthAreIgnored : Obligations.BytesBeyondTheFourthAreIgnored := by
  unfold Obligations.BytesBeyondTheFourthAreIgnored
  intro bs t h
  rw [← decodeBytes_take_four, List.take_append_of_le_length h, decodeBytes_take_four]

/-- Settles O30: DEC's result on a frame is that of bits 25 to 0, which are ENC's. -/
theorem unusedBitsAreIgnoredByDec : Obligations.UnusedBitsAreIgnoredByDec := by
  unfold Obligations.UnusedBitsAreIgnoredByDec
  refine ⟨fun f g dcount s h => ?_, fun fc cn f dcount s h hcount => ?_⟩
  · rw [exec_dec, exec_dec, decodeBytes_portBytes, decodeBytes_portBytes, decodeFrame_congr_used h]
  · rw [exec_dec, decodeBytes_portBytes, if_neg (Nat.not_lt.mpr hcount), decodeFrame_congr_used h,
      decodeFrame_encodeFrame]

/-- Settles O34: a flip is detected exactly when it inverts a check; two flips that the same check reads cancel. -/
theorem flipDetection : Obligations.FlipDetection := by
  unfold Obligations.FlipDetection
  refine ⟨fun f c hf => ⟨fun i h1 h24 => ?oneParity, fun i => decodeFrame_flipBit_of_used hf,
    fun i h26 h31 => ?unused, fun i j hij hrange => ?oneRange, fun i h1 h12 => ?withP0, fun i h13 h24 => ?withP1⟩,
    ?ruleExample⟩
  case oneParity =>
    rw [p0Calc_flipBit_ne_iff f (by omega), p1Calc_flipBit_ne_iff f (by omega)]
    omega
  case unused => rw [decodeFrame_flipBit_of_unused f h26 h31, hf]
  case oneRange =>
    exact decodeFrame_flipBit_flipBit hf (by omega) (by omega) hij (by unfold Checks; omega)
  case withP0 =>
    exact decodeFrame_flipBit_flipBit hf (by omega) (by omega) (by omega) (by unfold Checks; omega)
  case withP1 =>
    exact decodeFrame_flipBit_flipBit hf (by omega) (by omega) (by omega) (by unfold Checks; omega)
  case ruleExample => decide

end

section
/-! The family of 60_exceptions.md: what a request is answered in any state, and the run of a sequence in closed
form. -/

namespace Sys2Proof.Machine

open Safety

/-! One request: its answer, or its refusal, is the same in every state. -/

/-- A well-formed instruction gets the same response in every state, and an ill-formed one is refused in every state. -/
theorem exec_answer_cases (i : Instr) :
    (i.wellFormed = true ∧ ∃ r, ∀ s, exec i s = .next (s.respond r)) ∨
      (i.wellFormed = false ∧ ∀ s, exec i s = .refused .parityRange) := by
  cases i with
  | enc fc cn => exact .inl ⟨rfl, _, exec_enc fc cn⟩
  | dec din dcount => exact .inl ⟨rfl, _, exec_dec din dcount⟩
  | par v start length kind =>
    rcases Nat.lt_or_ge 32 (start.toNat + length.toNat) with h | h
    · exact .inr ⟨decide_eq_false (Nat.not_le.mpr h), exec_par_of_gt h v kind⟩
    · exact .inl ⟨decide_eq_true h, _, exec_par_of_le h v kind⟩

theorem step_of_decode_ok {s : State} {p : PortIn} {rest : List PortIn} {i : Instr}
    (hs : s.requests = p :: rest) (hd : decode p = .ok i) : step s = exec i { s with requests := rest } := by
  simp only [step, State.takeRequest, hs, hd]

/-- An admitted request gets the same response from every state that serves it, and a refused one the same refusal. -/
theorem step_answer_cases (p : PortIn) :
    (admitted p = true ∧ refusalFor p = none ∧ ∃ r, ∀ (s : State) (rest : List PortIn),
      s.requests = p :: rest → step s = .next { s with requests := rest, responses := s.responses ++ [r] }) ∨
    (admitted p = false ∧ ∃ why, refusalFor p = some why ∧ ∀ (s : State) (rest : List PortIn),
      s.requests = p :: rest → step s = .refused why) := by
  unfold admitted refusalFor
  cases hd : decode p with
  | error e =>
    cases e
    exact .inr ⟨rfl, _, rfl, fun s rest hs => step_of_decode_error hs hd⟩
  | ok i =>
    rcases exec_answer_cases i with ⟨hwf, r, hr⟩ | ⟨hwf, hr⟩
    · exact .inl ⟨hwf, if_pos hwf, r, fun s rest hs => (step_of_decode_ok hs hd).trans (hr _)⟩
    · exact .inr ⟨hwf, _, if_neg (by simp [hwf]), fun s rest hs => (step_of_decode_ok hs hd).trans (hr _)⟩

theorem alone_eq_serveNext (p : PortIn) : alone p = (serveNext (State.reset.present [p])).responses := rfl

theorem alone_of_step_next {p : PortIn} {t : State} (h : step (State.reset.present [p]) = .next t) :
    alone p = t.responses := by
  rw [alone_eq_serveNext, serveNext, h]

theorem alone_of_step_refused {p : PortIn} {why : Refusal} (h : step (State.reset.present [p]) = .refused why) :
    alone p = [] := by
  rw [alone_eq_serveNext, serveNext, h]
  rfl

theorem refusalFor_eq_none_iff {p : PortIn} : refusalFor p = none ↔ admitted p = true := by
  rcases step_answer_cases p with ⟨ha, hn, -⟩ | ⟨ha, why, hw, -⟩
  · simp [ha, hn]
  · simp [ha, hw]

theorem exists_alone_eq_singleton {p : PortIn} (h : admitted p = true) : ∃ r, alone p = [r] := by
  rcases step_answer_cases p with ⟨-, -, r, hr⟩ | ⟨ha, -⟩
  · exact ⟨r, alone_of_step_next (hr _ [] rfl)⟩
  · rw [h] at ha; cases ha

/-- Serving the oldest request adds what its run alone gives, and its refusal where there is no mark yet. -/
theorem serveNext_eq_of_cons {s : State} {p : PortIn} {rest : List PortIn} (hs : s.requests = p :: rest) :
    serveNext s = ⟨rest, s.responses ++ alone p, s.mark.or (refusalFor p)⟩ := by
  rcases step_answer_cases p with ⟨-, hn, r, hr⟩ | ⟨-, why, hw, hr⟩
  · rw [serveNext, hr s rest hs, alone_of_step_next (hr _ [] rfl), hn, Option.or_none]
    rfl
  · rw [serveNext, hr s rest hs, alone_of_step_refused (hr _ [] rfl), hw, List.append_nil]
    cases hm : s.mark <;> simp [State.passRefused, hs, hm]

/-! A run: the requests served one after another (R212). -/

theorem serveAll_of_nil {s : State} (hs : s.requests = []) : serveAll s = s := by
  rw [serveAll, hs]
  rfl

theorem serveAll_of_cons {s : State} {p : PortIn} {rest : List PortIn} (hs : s.requests = p :: rest) :
    serveAll s = serveAll (serveNext s) := by
  have hrest : (serveNext s).requests = rest := by rw [serveNext_eq_of_cons hs]
  rw [serveAll, serveAll, hs, hrest]
  rfl

theorem firstRefusal_cons (p : PortIn) (ps : List PortIn) :
    firstRefusal (p :: ps) = (refusalFor p).or (firstRefusal ps) := by
  rw [firstRefusal]
  cases refusalFor p <;> rfl

theorem serveAll_eq (s : State) :
    serveAll s = ⟨[], s.responses ++ s.requests.flatMap alone, s.mark.or (firstRefusal s.requests)⟩ := by
  induction hs : s.requests generalizing s with
  | nil =>
    rw [serveAll_of_nil hs, List.flatMap_nil, List.append_nil, firstRefusal, Option.or_none, ← hs]
  | cons p rest ih =>
    rw [serveAll_of_cons hs, serveNext_eq_of_cons hs, ih _ rfl, firstRefusal_cons, List.flatMap_cons,
      List.append_assoc, Option.or_assoc]

theorem runOf_eq (ps : List PortIn) : runOf ps = ⟨[], ps.flatMap alone, firstRefusal ps⟩ := by
  simp [runOf, serveAll_eq]

theorem firstRefusal_eq_none_iff {ps : List PortIn} :
    firstRefusal ps = none ↔ ∀ p ∈ ps, admitted p = true := by
  induction ps with
  | nil => simp [firstRefusal]
  | cons p ps ih => rw [firstRefusal_cons, Option.or_eq_none_iff, refusalFor_eq_none_iff, ih, List.forall_mem_cons]

theorem forall₂_flatMap_alone {ps : List PortIn} (h : ∀ p ∈ ps, admitted p = true) :
    List.Forall₂ (fun p r => alone p = [r]) ps (ps.flatMap alone) := by
  induction ps with
  | nil => exact .nil
  | cons p ps ih =>
    obtain ⟨hp, hps⟩ := List.forall_mem_cons.mp h
    obtain ⟨r, hr⟩ := exists_alone_eq_singleton hp
    rw [List.flatMap_cons, hr]
    exact .cons hr (ih hps)

theorem State.observation_eq_none {s : State} : s.observation = none ↔ s.mark ≠ none := by
  unfold State.observation
  cases s.mark <;> simp

end Sys2Proof.Machine

open Sys2Proof Sys2Proof.Machine

/-- Settles O41: the run's responses are those its requests get alone, and its mark is clear exactly when all of them
are admitted. -/
theorem observationOfARun : Obligations.ObservationOfARun := by
  unfold Obligations.ObservationOfARun
  refine fun ps => ⟨fun h => ?admitted, fun ⟨p, hp, hrefused⟩ => ?refused⟩
  case admitted =>
    refine ⟨ps.flatMap Safety.alone, State.observation_eq_some.mpr ?_, forall₂_flatMap_alone h⟩
    rw [runOf_eq]
    exact ⟨firstRefusal_eq_none_iff.mpr h, rfl⟩
  case refused =>
    rw [State.observation_eq_none, runOf_eq]
    intro hmark
    have hadmitted := firstRefusal_eq_none_iff.mp hmark p hp
    rw [hrefused] at hadmitted
    cases hadmitted

end

section
/-! The family of 30_encoding.md section 2: the word of the port set, reading back what was encoded, the output ports of
a response, and operands written as text. -/

namespace Sys2Proof

/-! The word lays the ports side by side, so each port is one slice of it, and the slices join to the word. -/

theorem PortIn.ofWord_toWord (p : PortIn) : PortIn.ofWord p.toWord = p := by
  cases p
  simp only [PortIn.ofWord, PortIn.toWord, BitVec.extractLsb'_cast, PortIn.mk.injEq]
  -- Each port: the ports below it are dropped, and it is then the lowest.
  simp (disch := decide) only [BitVec.extractLsb'_append_eq_of_le, BitVec.extractLsb'_append_eq_right,
    BitVec.extractLsb'_eq_self, Nat.reduceSub, and_self]

theorem PortIn.toWord_ofWord (w : BitVec 105) : (PortIn.ofWord w).toWord = w := by
  simp (disch := rfl) only [PortIn.toWord, PortIn.ofWord, BitVec.extractLsb'_append_extractLsb'_eq_extractLsb']
  exact BitVec.extractLsb'_eq_self

/-! Reading the ports back (R61 to R67). -/

@[simp] theorem decode_encode (i : Instr) : decode (encode i) = .ok i := by
  cases i with
  | enc fc cn | dec din dcount => rfl
  | par v start length kind => simp [decode, encode]

theorem decode_par {p : PortIn} (hop : p.op = 0b10#2) :
    decode p = .ok (.par p.pval p.pstart p.plen (kindOfBit p.pkind)) := by
  simp [decode, hop]

theorem decodeWord_encodeWord (i : Instr) : decodeWord (encodeWord i) = .ok i := by
  rw [decodeWord, encodeWord, PortIn.ofWord_toWord, decode_encode]

namespace Machine

/-! Operands written as text. -/

/-- A written number is an operand exactly where it fits (R26). -/
theorem operand_eq_ite {cs : List Char} {n : Nat} (w : Nat) (h : number cs = some n) :
    operand w cs = if n < 2 ^ w then some (BitVec.ofNat w n) else none := by
  rw [operand, h]

end Machine

end Sys2Proof

open Sys2Proof Sys2Proof.Machine

/-- Settles O3: the word gives back the ports encoded, and reading those gives the request. -/
theorem decodeOfEncodeIsTheRequest : Obligations.DecodeOfEncodeIsTheRequest := by
  unfold Obligations.DecodeOfEncodeIsTheRequest
  exact decodeWord_encodeWord

/-- Settles O5: each port is the slice of the word at its place, and the slices join to the word. -/
theorem portWordLosesNoBit : Obligations.PortWordLosesNoBit := by
  unfold Obligations.PortWordLosesNoBit
  exact ⟨PortIn.ofWord_toWord, PortIn.toWord_ofWord⟩

/-- Settles O4: in each case of the select, `decode_cases` gives the request, whose operands are the selected ports. -/
theorem encodeOfDecodeDrivesTheSelectedPorts : Obligations.EncodeOfDecodeDrivesTheSelectedPorts := by
  unfold Obligations.EncodeOfDecodeDrivesTheSelectedPorts
  intro p i h
  rcases decode_cases p with ⟨hop, hd⟩ | ⟨hop, hd⟩ | ⟨hop, hd⟩ | ⟨hop, hd⟩ <;> rw [hd] at h <;> cases h
  · exact ⟨hop.symm, rfl, rfl⟩
  · exact ⟨hop.symm, rfl, rfl⟩
  · exact ⟨hop.symm, rfl, rfl, rfl, bitOfKind_kindOfBit p.pkind⟩

/-- Settles O2: the written words are evaluated. -/
theorem writtenWordsDecode : Obligations.WrittenWordsDecode := by
  unfold Obligations.WrittenWordsDecode
  exact ⟨rfl, rfl, rfl, rfl, rfl, rfl, rfl⟩

/-- Settles O46: the operand of a written number is decided by whether the number fits. -/
theorem writtenOperandIsNeverTruncated : Obligations.WrittenOperandIsNeverTruncated := by
  unfold Obligations.WrittenOperandIsNeverTruncated
  refine fun w cs n h => ⟨fun hfits => ⟨BitVec.ofNat w n, ?_, ?_⟩, fun hwide => ?_⟩
  · rw [operand_eq_ite w h, if_pos hfits]
  · rw [BitVec.toNat_ofNat, Nat.mod_eq_of_lt hfits]
  · rw [operand_eq_ite w h, if_neg (Nat.not_lt.mpr hwide)]

/-- Settles O48: the wire bytes are the frame's slices, and the two ports hold what the response holds. -/
theorem frameAndParityBitReachTheirPorts : Obligations.FrameAndParityBitReachTheirPorts := by
  unfold Obligations.FrameAndParityBitReachTheirPorts
  exact ⟨fun f => ⟨rfl, fun _ hk => wireBytes_getElem? f hk⟩, fun _ => rfl⟩

/-- Settles O49: each kind of response drives its own operation's ports alone. -/
theorem portsOfOtherOperationsHoldNoValue : Obligations.PortsOfOtherOperationsHoldNoValue := by
  unfold Obligations.PortsOfOtherOperationsHoldNoValue
  exact ⟨fun _ => ⟨rfl, rfl, rfl, rfl⟩, fun _ => ⟨rfl, rfl⟩, fun _ => ⟨rfl, rfl, rfl, rfl⟩⟩

end

section
/-! The family of the run: what exec and a step answer, the run invariant, runs of a sequence, and what a host samples
after T_SETTLE. -/

namespace Sys2Proof

open Machine Safety

namespace Machine

/-! What exec answers, by operation (R49, R60). -/

/-- A next state of exec is the state it was given with the operation's response; PAR has one only inside its
precondition. -/
theorem exec_next_cases {i : Instr} {s t : State} (h : exec i s = .next t) :
    (∃ fc cn, i = .enc fc cn ∧ t = s.respond (.frame (encodeFrame fc cn))) ∨
    (∃ din dcount, i = .dec din dcount ∧ t = s.respond (.decoded (decodeBytes (portBytes din dcount)))) ∨
    ∃ v start length kind, i = .par v start length kind ∧ start.toNat + length.toNat ≤ 32 ∧
      t = s.respond (.parity (parity v start.toNat length.toNat kind)) := by
  cases i with
  | enc fc cn => cases h; exact .inl ⟨fc, cn, rfl, rfl⟩
  | dec din dcount => cases h; exact .inr (.inl ⟨din, dcount, rfl, rfl⟩)
  | par v start length kind => exact .inr (.inr ⟨v, start, length, kind, rfl, execPar_next h⟩)

/-! What a step refuses (R62, R102). -/

theorem refusalFor_eq_ite (p : PortIn) :
    refusalFor p =
      if p.op = 0b11#2 then some .reservedOp
      else if p.op = 0b10#2 ∧ 32 < p.pstart.toNat + p.plen.toNat then some .parityRange
      else none := by
  unfold refusalFor
  rcases decode_cases p with ⟨hop, hd⟩ | ⟨hop, hd⟩ | ⟨hop, hd⟩ | ⟨hop, hd⟩ <;> rw [hd, hop]
  · rfl
  · rfl
  · simp only [Instr.wellFormed, decide_eq_true_eq, ← Nat.not_lt, ite_not]
    simp
  · rfl

theorem step_refused_iff {s : State} {why : Refusal} :
    step s = .refused why ↔ ∃ p rest, s.requests = p :: rest ∧ refusalFor p = some why := by
  cases hs : s.requests with
  | nil => simp [step, State.takeRequest, hs]
  | cons p rest =>
    rcases step_answer_cases p with ⟨-, hn, r, hr⟩ | ⟨-, why', hw, hr⟩
    · simp [hr s rest hs, hn]
    · simp [hr s rest hs, hw]

theorem step_of_nil {s : State} (hs : s.requests = []) : step s = .next s := by
  rw [step, State.takeRequest, hs]

/-- Presenting a request that reads as `i` makes the next step `i` in the state without it. -/
theorem step_presentFirst {p : PortIn} {i : Instr} (hd : decode p = .ok i) (s : State) :
    step (s.presentFirst p) = exec i s :=
  step_of_decode_ok rfl hd

/-- Serving an admitted request is its step (R212). -/
theorem step_eq_next_serveNext {s : State} {p : PortIn} {rest : List PortIn} (hs : s.requests = p :: rest)
    (h : admitted p = true) : step s = .next (serveNext s) := by
  rcases serveNext_of_cons hs with ⟨-, -, r, hstep, -⟩ | ⟨hrefused, -⟩
  · exact hstep
  · rw [h] at hrefused; cases hrefused

/-! The run invariant (R144, R146, R203). It says nothing of the requests waiting, so taking one keeps it. -/

theorem soundFrame_encodeFrame (fc : FacilityCode) (cn : CardNumber) : soundFrame (encodeFrame fc cn) = true := by
  simp only [soundFrame, unused_encodeFrame, decodeFrame_encodeFrame, unpack_encodeFrame, decide_true, Bool.and_self]

theorem runInv_respond {s : State} {r : Response} (hs : RunInv s) (hr : soundResponse r = true) :
    RunInv (s.respond r) := by
  obtain ⟨hresponses, hmark⟩ := hs
  refine ⟨fun q hq => ?_, hmark⟩
  rcases List.mem_append.mp hq with hold | hnew
  · exact hresponses q hold
  · rwa [List.mem_singleton.mp hnew]

theorem runInv_reset : RunInv State.reset := ⟨nofun, rfl⟩

/-- ENC answers a sound frame, and the invariant says nothing of the other responses. -/
theorem exec_keeps_runInv {i : Instr} {s t : State} (hs : RunInv s) (h : exec i s = .next t) : RunInv t := by
  rcases exec_next_cases h with ⟨fc, cn, -, rfl⟩ | ⟨din, dcount, -, rfl⟩ | ⟨v, start, length, kind, -, -, rfl⟩
  · exact runInv_respond hs (soundFrame_encodeFrame fc cn)
  · exact runInv_respond hs rfl
  · exact runInv_respond hs rfl

theorem step_keeps_runInv {s t : State} (hs : RunInv s) (h : step s = .next t) : RunInv t := by
  rcases step_cases h with ⟨-, rfl⟩ | ⟨p, rest, i, -, -, hexec⟩
  · exact hs
  · exact exec_keeps_runInv (s := { s with requests := rest }) hs hexec

/-- The block refuses for a reserved select or for a parity range past bit 31 alone (R203). -/
theorem soundMark_refusalFor (p : PortIn) : soundMark (refusalFor p) = true := by
  rw [refusalFor_eq_ite]
  split
  · rfl
  · split <;> rfl

theorem passRefused_keeps_runInv {s : State} {why : Refusal} (hs : RunInv s) (h : step s = .refused why) :
    RunInv (s.passRefused why) := by
  obtain ⟨hresponses, hmark⟩ := hs
  obtain ⟨p, rest, -, hwhy⟩ := step_refused_iff.mp h
  refine ⟨hresponses, ?_⟩
  rw [State.passRefused_mark]
  cases hm : s.mark with
  | none => exact hwhy ▸ soundMark_refusalFor p
  | some first => exact hm ▸ hmark

theorem serveNext_keeps_runInv {s : State} (hs : RunInv s) : RunInv (serveNext s) := by
  rcases serveNext_cases s with h | ⟨why, h, heq⟩
  · exact step_keeps_runInv hs h
  · rw [heq]; exact passRefused_keeps_runInv hs h

/-! The refusal mark is never cleared (R203). -/

theorem serveNext_of_nil {s : State} (hs : s.requests = []) : serveNext s = s := by
  rw [serveNext, step_of_nil hs]

theorem isSome_mark_serveNext {s : State} (h : s.mark.isSome = true) : (serveNext s).mark.isSome = true := by
  cases hs : s.requests with
  | nil => rwa [serveNext_of_nil hs]
  | cons p rest => rw [serveNext_eq_of_cons hs, Option.isSome_or, h, Bool.true_or]

theorem isSome_mark_serveTimes {s : State} (h : s.mark.isSome = true) (n : Nat) :
    (serveTimes n s).mark.isSome = true := by
  induction n generalizing s with
  | zero => exact h
  | succ n ih => exact ih (isSome_mark_serveNext h)

theorem isSome_mark_serveNext_of_refused {s : State} {why : Refusal} (h : step s = .refused why) :
    (serveNext s).mark.isSome = true := by
  rw [serveNext, h]
  rfl

/-! Steps on the host's interface (R212). -/

theorem run_succ_of_step_next (M : Host.Core) {s t : M.State} (h : M.step s = .next t) (k : Nat) :
    M.run (k + 1) s = M.run k t := by
  rw [Host.Core.run, h]

/-- As many steps as there are admitted requests, or more, serve them all. -/
theorem run_eq_serveAll {k : Nat} {s : State} (hadmitted : ∀ p ∈ s.requests, admitted p = true)
    (hk : s.requests.length ≤ k) : Host.Core.run core k s = .next (serveAll s) := by
  induction k generalizing s with
  | zero =>
    rw [serveAll_of_nil (List.eq_nil_of_length_eq_zero (Nat.le_zero.mp hk))]
    rfl
  | succ k ih =>
    cases hs : s.requests with
    | nil =>
      exact (run_succ_of_step_next core (step_of_nil hs) k).trans (ih hadmitted (by simp [hs]))
    | cons p rest =>
      rw [hs] at hadmitted hk
      obtain ⟨hp, hrest⟩ := List.forall_mem_cons.mp hadmitted
      have hnext : (serveNext s).requests = rest := by rw [serveNext_eq_of_cons hs]
      rw [serveAll_of_cons hs]
      exact (run_succ_of_step_next core (step_eq_next_serveNext hs hp) k).trans
        (ih (hnext ▸ hrest) (hnext ▸ Nat.le_of_succ_le_succ hk))

/-! What a host samples after T_SETTLE (R233, R235). -/

theorem sample_of_alone {h : Presentation} {r : Response} (hheld : Config.tSettle ≤ h.heldFor)
    (hr : alone h.ports = [r]) : h.sample = some (portsOut r) := by
  rw [Presentation.sample, if_pos hheld, hr]
  rfl

/-- The settled sample shows what exec answers the request read off the ports. -/
theorem sample_of_decode {h : Presentation} {i : Instr} {r : Response} (hheld : Config.tSettle ≤ h.heldFor)
    (hd : decode h.ports = .ok i) (he : exec i State.reset = .next (State.reset.respond r)) :
    h.sample = some (portsOut r) :=
  sample_of_alone hheld (alone_of_exec hd he)

end Machine

end Sys2Proof

open Sys2Proof Sys2Proof.Machine

/-- Settles O39: exec adds a sound response, since ENC's frame decodes to its fields, and a refusal is one of R203's. -/
theorem everyStepKeepsTheRunInvariant : Obligations.EveryStepKeepsTheRunInvariant := by
  unfold Obligations.EveryStepKeepsTheRunInvariant
  exact ⟨fun _ _ => step_keeps_runInv, fun _ => serveNext_keeps_runInv⟩

/-- Settles O38: there is no response at reset, and no mark. -/
theorem resetHasTheRunInvariant : Obligations.ResetHasTheRunInvariant := by
  unfold Obligations.ResetHasTheRunInvariant
  exact runInv_reset

/-- Settles O35: a next state of exec is the state it was given with one response more. -/
theorem execAddsOneResponse : Obligations.ExecAddsOneResponse := by
  unfold Obligations.ExecAddsOneResponse
  intro i s t h
  rcases exec_next_cases h with ⟨fc, cn, rfl, rfl⟩ | ⟨din, dcount, rfl, rfl⟩ | ⟨v, start, length, kind, rfl, -, rfl⟩
  · exact ⟨rfl, rfl, _, rfl, _, rfl⟩
  · exact ⟨rfl, rfl, _, rfl, _, rfl⟩
  · exact ⟨rfl, rfl, _, rfl, _, rfl⟩

/-- Settles O36: a well-formed request has one response in every state, and an ill-formed one is refused in every
state. -/
theorem answerDependsOnTheRequestAlone : Obligations.AnswerDependsOnTheRequestAlone := by
  unfold Obligations.AnswerDependsOnTheRequestAlone
  intro i
  rcases exec_answer_cases i with ⟨-, hanswer⟩ | ⟨-, hrefused⟩
  · exact .inl hanswer
  · exact .inr ⟨.parityRange, hrefused⟩

/-- Settles O37: the conditions of the statement are those under which the request has a refusal. -/
theorem everyAdmittedRequestIsAnswered : Obligations.EveryAdmittedRequestIsAnswered := by
  unfold Obligations.EveryAdmittedRequestIsAnswered
  intro s p rest hs
  have hrefusal := refusalFor_eq_ite p
  split
  case isTrue hop =>
    rw [if_pos hop] at hrefusal
    exact step_refused_iff.mpr ⟨p, rest, hs, hrefusal⟩
  case isFalse hop =>
    rw [if_neg hop] at hrefusal
    split
    case isTrue hrange =>
      rw [if_pos hrange] at hrefusal
      exact step_refused_iff.mpr ⟨p, rest, hs, hrefusal⟩
    case isFalse hrange =>
      rw [if_neg hrange] at hrefusal
      rcases step_answer_cases p with ⟨-, -, r, hr⟩ | ⟨-, why, hw, -⟩
      · exact ⟨r, hr s rest hs⟩
      · rw [hrefusal] at hw; cases hw

/-- Settles O40: `serveAll_eq`, with the mark read by whether there was one. -/
theorem runGivesEachRequestItsOwnAnswer : Obligations.RunGivesEachRequestItsOwnAnswer := by
  unfold Obligations.RunGivesEachRequestItsOwnAnswer
  intro s
  rw [serveAll_eq]
  refine ⟨rfl, rfl, ?_⟩
  cases s.mark <;> rfl

/-- Settles O42: a run's responses are those its requests get alone, and its mark is clear exactly when all of them are
admitted; neither depends on how the sequence is cut, nor on its order but for the order of the responses. -/
theorem requestsAreIndependent : Obligations.RequestsAreIndependent := by
  unfold Obligations.RequestsAreIndependent
  refine ⟨fun ps qs => ?_, fun ps qs hperm => ?_⟩
  · simp only [runOf_eq, List.flatMap_append]
  · simp only [runOf_eq, firstRefusal_eq_none_iff, hperm.mem_iff, and_true]
    exact hperm.flatMap_right Safety.alone

/-- Settles O43: the first request served sets the mark or finds it set, and no later one clears it. -/
theorem refusalMarkIsKept : Obligations.RefusalMarkIsKept := by
  unfold Obligations.RefusalMarkIsKept
  intro s why h n hn
  have hnext : (serveNext s).mark.isSome = true := by
    rcases h with hrefused | hmark
    · exact isSome_mark_serveNext_of_refused hrefused
    · exact isSome_mark_serveNext (by rw [hmark]; rfl)
  obtain ⟨m, rfl⟩ := Nat.exists_eq_add_of_le' hn
  have hset : (serveTimes (m + 1) s).mark.isSome = true := isSome_mark_serveTimes hnext m
  exact ⟨hset, State.observation_eq_none.mpr (Option.isSome_iff_ne_none.mp hset)⟩

/-- Settles O44: induction on the steps; each serves the oldest request, and with none waiting it stands still. -/
theorem stepsServeAdmittedRequests : Obligations.StepsServeAdmittedRequests := by
  unfold Obligations.StepsServeAdmittedRequests
  exact fun _ hadmitted _ hk => run_eq_serveAll hadmitted hk

/-- Settles O45: an admitted request has one response in every state, the one its run alone has. -/
theorem settledSampleShowsTheResponse : Obligations.SettledSampleShowsTheResponse := by
  unfold Obligations.SettledSampleShowsTheResponse
  intro h ⟨hheld, hadmitted⟩
  rcases step_answer_cases h.ports with ⟨-, -, r, hr⟩ | ⟨hrefused, -⟩
  · exact ⟨r, sample_of_alone hheld (alone_of_step_next (hr _ [] rfl)), fun s => hr _ s.requests rfl⟩
  · rw [hadmitted] at hrefused; cases hrefused

/-- Settles O50: the sample shows exec's answer; DEC's ports follow its result, and PAR's bit is the XOR of the range
with the code of its kind, which is `pkind`. -/
theorem settledSampleOfEachOperation : Obligations.SettledSampleOfEachOperation := by
  unfold Obligations.SettledSampleOfEachOperation
  intro h hheld
  obtain ⟨henc, hdec, -⟩ := opSelectsOperation h.ports
  refine ⟨fun hop => ⟨_, sample_of_decode hheld (henc hop) (exec_enc _ _ _), rfl⟩,
    fun hop => ⟨_, sample_of_decode hheld (hdec hop) (exec_dec _ _ _), ?decoded⟩, fun hop hrange => ?parity⟩
  case decoded =>
    match decodeBytes (portBytes h.ports.din h.ports.dcount) with
    | .ok c => exact ⟨rfl, rfl, rfl⟩
    | .err .tooShort => exact ⟨rfl, rfl, rfl⟩
    | .err .parityMismatch => exact ⟨rfl, rfl, rfl⟩
  case parity =>
    refine ⟨_, sample_of_decode hheld (decode_par hop) (exec_par_of_le hrange _ _ _), ?_⟩
    rw [parity_eq_xorAll_slice, BitVec.setWidth_ushiftRight_eq_extractLsb, bitOfKind_kindOfBit]
    rfl

/-- Settles O47: reading the driven ports gives the request, and the driven `din` and `dcount` show DEC's sequence. -/
theorem drivenRequestIsServed : Obligations.DrivenRequestIsServed := by
  unfold Obligations.DrivenRequestIsServed
  intro fill r s
  cases r with
  | enc fc cn => exact step_presentFirst (decode_encode (.enc fc cn)) s
  | par v start length kind => exact step_presentFirst (decode_encode (.par v start length kind)) s
  | dec bs =>
    obtain ⟨hports, hshows⟩ := decPortFormIsTheSequenceForm
    exact (step_presentFirst (decode_encode _) s).trans (hports bs _ _ s (hshows fill bs))

/-- Settles O7: a step is exec of what it reads, and a placed table word is read as the port set it lays out. -/
theorem stepRunsTheDecodedRequest : Obligations.StepRunsTheDecodedRequest := by
  unfold Obligations.StepRunsTheDecodedRequest
  exact ⟨fun _ _ _ _ => step_of_decode_ok, fun s _ _ _ h => step_presentFirst (decodeTableWord_eq_some.mp h) s⟩

/-- Settles O8: there is no request to take. -/
theorem stepWithoutRequestStandsStill : Obligations.StepWithoutRequestStandsStill := by
  unfold Obligations.StepWithoutRequestStandsStill
  exact fun _ => step_of_nil

/-- Settles O9: a run's responses are those its requests get alone, the first request's first. -/
theorem runStartsWithNoResponse : Obligations.RunStartsWithNoResponse := by
  unfold Obligations.RunStartsWithNoResponse
  refine ⟨rfl, rfl, fun p ps r hr => ?_⟩
  rw [runOf_eq, List.flatMap_cons, hr]
  rfl

end
